-- ==== Sys2Proof/Word.lean ====
section
/-! DEFINITION. The bit-vector types of the block and nothing else: bus words (20_memory.md R44), bytes of the
buffers (10_state.md R30, R31) and byte offsets inside the 4 KiB window (20_memory.md R38). -/

namespace Sys2Proof

/-- One 32-bit bus word or register (10_state.md R17, 20_memory.md R44). -/
abbrev Word := BitVec 32

/-- One 8-bit byte of a buffer; also one character, since a character is a byte (10_state.md R30). -/
abbrev Byte := BitVec 8

/-- A byte offset from BASE inside the 4 KiB window, 0x000 to 0xFFF (20_memory.md R38). -/
abbrev Offset := BitVec 12

/-- A 64-bit counter or time (10_state.md R20, R21). -/
abbrev DWord := BitVec 64

end Sys2Proof
end

