-- ==== Sys2Proof/Config.lean ====
section
/-! DEFINITION. What the spec fixes for this block (00_scope.md R5, R6), what it leaves to the platform (BASE, R38)
and the two free values: a read while busy (20_memory.md R40) and the working values of a running command
(10_state.md R32). The free values have no body, so nothing can be proved of them. -/

namespace Sys2Proof

/-- `PERIOD` = 30 seconds, fixed (R5). -/
@[simp] def Config.period : Nat := 30

/-- `10 ^ DIGITS` with `DIGITS` = 6, fixed (R5). -/
@[simp] def Config.codeModulus : Nat := 1000000

/-- `TXT_MAX`: capacity of TXT in bytes (R6, R30). -/
@[simp] def Config.txtMax : Nat := 128

/-- `BIN_MAX`: capacity of BIN in bytes (R6, R31). -/
@[simp] def Config.binMax : Nat := 80

/-- Length of DIGEST in bytes (R29). -/
@[simp] def Config.digestLen : Nat := 20

/-- Size of the block's window of the host's address space, 4 KiB (R38). -/
@[simp] def Config.windowSize : Nat := 4096

/-- The number of the 4 KiB page the platform puts the block at; `BASE` is left OPEN (R6, R38; log entry 5). -/
opaque Config.basePage : Nat

/-- `BASE`, 4 KiB aligned (R38). -/
def Config.base : Nat := Config.basePage * Config.windowSize

/-- The three window positions of a verification, `delta` = -1, 0, +1 (R5, 42_totp.md R68). -/
inductive WindowPos where
  | before
  | current
  | after
  deriving DecidableEq, Repr, Inhabited

/-- The working values the engine keeps during RUN only (R32): the Base32 bit accumulator with its count of pending
bits (40_base32.md R56, R58), the SHA-1 chaining state (41_hotp.md R61) and VERIFY's window index (42_totp.md R68). -/
structure Work where
  acc    : BitVec 12
  nbits  : Nat
  h0     : Word
  h1     : Word
  h2     : Word
  h3     : Word
  h4     : Word
  window : WindowPos
  deriving DecidableEq, Repr, Inhabited

/-- FREE VALUE: the word a read of any offset but STATUS returns while a command runs, the `n`-th draw (R40, I2;
log entry 3). -/
opaque Config.freeWord : Nat → Word

/-- FREE VALUE: the working values at some moment of a run, the `n`-th draw (R32; log entry 4). The spec gives their
start and end but no schedule in between, and nothing reads them. -/
opaque Config.freeWork : Nat → Work

end Sys2Proof
end

