-- ==== Sys2Proof/Syntax.lean ====
section
/-! DEFINITION. The instructions of the block: its seven command words, one constructor per row of
spec/opcode_table.json (30_encoding.md R50). -/

namespace Sys2Proof

/-- A legal command (R50). No command has an operand in its word other than S, which tells DEC from DEC.S (R55); all
operands are implicit registers and buffers. -/
inductive Instr where
  /-- ENC: Base32-encode BIN into TXT (40_base32.md R57). -/
  | enc
  /-- DEC: Base32-decode TXT into BIN, leniently, S = 0 (40_base32.md R59). -/
  | dec
  /-- DEC.S: Base32-decode TXT into BIN, strictly, S = 1 (40_base32.md R59). -/
  | decS
  /-- HOTP: the HOTP code of key BIN at counter CNT (41_hotp.md R64). -/
  | hotp
  /-- TOTP: the code of the Base32 secret TXT at time TIME (42_totp.md R66). -/
  | totp
  /-- VERIFY: compare the candidate with the window of codes (42_totp.md R69). -/
  | verify
  /-- ZERO: every register and buffer to its reset value (43_control.md R71). -/
  | zero
  deriving DecidableEq, Repr

end Sys2Proof
end

