-- ==== Sys2Proof/Syntax/HostAssembly.lean ====
section
/-! DEFINITION. The host's side of the interface as syntax: register names, the lines of the host assembly
(30_encoding.md R48, R54) and the bus accesses a program expands to. Meanings stand under Machine/. -/

namespace Sys2Proof

/-- The register names of the map of 10_state.md R17, in its order. -/
inductive RegName where
  | cmd
  | status
  | binLen
  | txtLen
  | cntLo
  | cntHi
  | timeLo
  | timeHi
  | candLo
  | candHi
  | candLen
  | binCode
  | code
  | codeAscLo
  | codeAscHi
  | digest0
  | digest1
  | digest2
  | digest3
  | digest4
  deriving DecidableEq, Repr

/-- `<reg>` of the host assembly (R48): a register's name, `TXT+k`, `BIN+k`, or a literal offset `@0x...`. -/
inductive Loc where
  | reg (r : RegName)
  | txt (k : Nat)
  | bin (k : Nat)
  | literal (off : Nat)
  deriving DecidableEq, Repr

/-- One line of the host assembly: the forms of R48 and the pseudo-instructions of R54. -/
inductive Line where
  | wr (l : Loc) (imm : Nat)
  | rd (l : Loc)
  | cmd (i : Instr)
  | wait
  | ldTxt (s : List Byte)
  | ldBin (b : List Byte)
  | ldCand (s : List Byte)
  | ldCnt (u : DWord)
  | ldTime (u : DWord)
  | run (i : Instr)
  deriving DecidableEq, Repr

/-- What the host has still to do: bus accesses (00_scope.md R9) and the WAIT polling loop (R54).
`rdAddr` and `wrAddr` are accesses by absolute bus address, which reach the block only inside its window
(20_memory.md R38). -/
inductive HostOp where
  | rd (off : Offset)
  | wr (off : Offset) (v : Word)
  | wait
  | rdAddr (addr : Nat)
  | wrAddr (addr : Nat) (v : Word)
  deriving DecidableEq, Repr

end Sys2Proof
end

