-- ==== Sys2Proof/WellFormed.lean ====
section
/-! DEFINITION. Well-formedness as Bools. A command has no operand, so every Instr is well formed; the host assembly
has the bounds of 30_encoding.md R48 and R54. -/

namespace Sys2Proof

/-- Every command is well formed: its word has no operand field (30_encoding.md R49, R55), and S with an OP other than
DEC (R51) is no constructor of Instr. -/
def Instr.wf : Instr → Bool
  | .enc => true
  | .dec => true
  | .decS => true
  | .hotp => true
  | .totp => true
  | .verify => true
  | .zero => true

/-- `TXT+k` with `k` below 32, `BIN+k` with `k` below 20 (10_state.md R17), a literal offset inside the 4 KiB window
(20_memory.md R38). -/
def Loc.wf : Loc → Bool
  | .reg _ => true
  | .txt k => decide (k < 32)
  | .bin k => decide (k < 20)
  | .literal off => decide (off < 4096)

/-- `<imm32>` below 2^32 (R48); `LDTXT` of at most 128 bytes and `LDBIN` of at most 80 (R54); `LDCAND` of a length a
32-bit write can carry. -/
def Line.wf : Line → Bool
  | .wr l imm => l.wf && decide (imm < 2 ^ 32)
  | .rd l => l.wf
  | .cmd i => i.wf
  | .wait => true
  | .ldTxt s => decide (s.length ≤ 128)
  | .ldBin b => decide (b.length ≤ 80)
  | .ldCand s => decide (s.length < 2 ^ 32)
  | .ldCnt _ => true
  | .ldTime _ => true
  | .run i => i.wf

end Sys2Proof
end

