-- ==== Sys2Proof/Decode.lean ====
section
/-! DEFINITION. The command word: decoder (total on every 32-bit word, rejecting by name) and encoder
(30_encoding.md R49 to R53). -/

namespace Sys2Proof

/-- Why a command word is illegal (30_encoding.md R52). The block reports one code for all of them, ILLEGAL_CMD
(60_exceptions.md R76). -/
inductive DecodeError where
  /-- A 1 in bits `[7:4]` or `[31:9]`. -/
  | reservedBit
  /-- S = 1 with OP other than 0x2 (R51). -/
  | strictWithoutDec
  /-- OP = 0x0 or OP = 0x7 to 0xF. -/
  | reservedOp
  deriving DecidableEq, Repr

/-- OP, bits `[3:0]` (R49). -/
def opField (w : Word) : BitVec 4 := w.extractLsb' 0 4

/-- S, bit `[8]` (R49). -/
def strictField (w : Word) : Bool := w.getLsbD 8

/-- The reserved bits `[7:4]` and `[31:9]` are all 0 (R49). -/
def reservedClear (w : Word) : Bool := w.extractLsb' 4 4 == 0#4 && w.extractLsb' 9 23 == 0#23

/-- The decoder, field by field (R49 to R52). -/
def decode (w : Word) : Except DecodeError Instr :=
  if reservedClear w = false then .error .reservedBit
  else if strictField w = true ∧ opField w ≠ 2#4 then .error .strictWithoutDec
  else
    match (opField w).toNat with
    | 1 => .ok .enc
    | 2 => if strictField w then .ok .decS else .ok .dec
    | 3 => .ok .hotp
    | 4 => .ok .totp
    | 5 => .ok .verify
    | 6 => .ok .zero
    | _ => .error .reservedOp

/-- What the decoder reads from a table row's word of `nbits` bits: the command word is one 32-bit word (R53), and
bits above `nbits` are 0. -/
def decodeTableWord (nbits w : Nat) : Option Instr :=
  if w % 2 ^ nbits < 2 ^ 32 then (decode (BitVec.ofNat 32 (w % 2 ^ nbits))).toOption else none

/-- A command word from its fields (R49): `[31:9]` = 0, S, `[7:4]` = 0, OP. -/
def commandWord (op : BitVec 4) (strict : Bool) : Word := 0#23 ++ BitVec.ofBool strict ++ 0#4 ++ op

/-- The encoder: OP and S of each command (R50). -/
def encode : Instr → Word
  | .enc => commandWord 1 false
  | .dec => commandWord 2 false
  | .decS => commandWord 2 true
  | .hotp => commandWord 3 false
  | .totp => commandWord 4 false
  | .verify => commandWord 5 false
  | .zero => commandWord 6 false

end Sys2Proof
end

