-- ==== Sys2Proof/Machine/Bytes.lean ====
section
/-! DEFINITION. Byte orders: little-endian bus lanes (20_memory.md R41) and the big-endian orders of the HOTP
computation (20_memory.md R43, 00_scope.md R8). -/

namespace Sys2Proof.Machine

/-- Byte lane `i` of a bus word: bits `[8i+7:8i]` (R41). -/
def lane (v : Word) (i : Nat) : Byte := v.extractLsb' (8 * i) 8

/-- The bus word `{b3, b2, b1, b0}` (R41). -/
def ofLanes (b0 b1 b2 b3 : Byte) : Word := b3 ++ b2 ++ b1 ++ b0

/-- `be32(s, i)` = `{s[i], s[i+1], s[i+2], s[i+3]}` (R8). Every use lies inside `s`; the 0 past the end is never read. -/
def be32 (s : List Byte) (i : Nat) : Word :=
  s.getD i 0 ++ s.getD (i + 1) 0 ++ s.getD (i + 2) 0 ++ s.getD (i + 3) 0

/-- `be32bytes(w)`: most significant byte first (41_hotp.md R61). -/
def be32bytes (w : Word) : List Byte :=
  [w.extractLsb' 24 8, w.extractLsb' 16 8, w.extractLsb' 8 8, w.extractLsb' 0 8]

/-- `be64bytes(c)`: byte `j` is `c[63-8j : 56-8j]` (R8). -/
def be64bytes (c : DWord) : List Byte :=
  [c.extractLsb' 56 8, c.extractLsb' 48 8, c.extractLsb' 40 8, c.extractLsb' 32 8,
   c.extractLsb' 24 8, c.extractLsb' 16 8, c.extractLsb' 8 8, c.extractLsb' 0 8]

end Sys2Proof.Machine
end

