-- ==== Sys2Proof/Machine/State.lean ====
section
/-! DEFINITION. The state of the block (10_state.md R16), the host's pending work and the order in which the agents
move (00_scope.md R12), the reasons to stop, and the state after reset (10_state.md R34). -/

namespace Sys2Proof.Machine

/-- Why the machine stops. -/
inductive Fault where
  /-- Raised by a host turn that accesses the block while reset is asserted: "a model treats such an access as a fault
  of the host program" (70_reset_and_hazards.md R92, I5). Safe: the machine stops where the spec leaves the effect
  OPEN. -/
  | accessInReset
  deriving DecidableEq, Repr

/-- Why an instruction has no meaning. -/
inductive Refusal where
  /-- Raised by an arm of exec whose instruction has no meaning yet; no arm of this model does. Safe. -/
  | notModelled (mnemonic : String)
  deriving DecidableEq, Repr

/-- The engine's phase; STATUS.BUSY is "phase is RUN" (R32). -/
inductive Phase where
  | idle
  | run
  deriving DecidableEq, Repr

/-- The error codes a command can complete with (60_exceptions.md R75); codes 5 to 15 are never produced. -/
inductive ErrCode where
  | noError
  | illegalCmd
  | length
  | invalidChar
  | emptyKey
  deriving DecidableEq, Repr

/-- The RW registers of the map (R17 to R22); the three lengths are 8 bits wide, their upper bits RAZ/WI (R33). -/
structure Regs where
  binLen  : Byte
  txtLen  : Byte
  cntLo   : Word
  cntHi   : Word
  timeLo  : Word
  timeHi  : Word
  candLo  : Word
  candHi  : Word
  candLen : Byte
  deriving DecidableEq, Repr

/-- The RO result registers but DIGEST, which stands in the byte windows (R26 to R29). -/
structure Results where
  binCode   : Word
  code      : Word
  codeAscLo : Word
  codeAscHi : Word
  deriving DecidableEq, Repr

/-- The stored fields of STATUS (R18); BUSY is the phase (R32). -/
structure Status where
  done    : Bool
  lost    : Bool
  matched : Bool
  err     : ErrCode
  deriving DecidableEq, Repr

/-- The hidden engine state (R32). `work` is `none` outside RUN: "No working value survives a command's completion". -/
structure Engine where
  phase    : Phase
  cmdLatch : Word
  work     : Option Work
  deriving DecidableEq, Repr

/-- The byte windows TXT, BIN and DIGEST (20_memory.md R41) as one list of (byte offset in the window, byte), offsets
strictly rising, no byte 0x00 listed: an unlisted byte reads 0x00, the reset contents (R34). -/
abbrev Memory := List Host.Cell

/-- Who moves next. Any list of turns is a schedule the spec admits: the host's speed and LATENCY are open
(70_reset_and_hazards.md R98, log entries 1 and 2). -/
inductive Turn where
  /-- The host does its next access. -/
  | host
  /-- One more cycle of a running command passes, without completing it. -/
  | cycle
  /-- The running command completes (R24). -/
  | complete
  /-- The platform asserts reset (R91, R92). -/
  | assertReset
  /-- The platform releases reset (R91). -/
  | releaseReset
  deriving DecidableEq, Repr

/-- Everything the spec gives the machine, with the host's pending work. -/
structure State where
  /-- BIN_LEN, TXT_LEN, CNT, TIME, CAND, CAND_LEN. -/
  regs    : Regs
  /-- BINCODE, CODE, CODE_ASC_LO, CODE_ASC_HI. -/
  results : Results
  /-- TXT, BIN and DIGEST. -/
  mem     : Memory
  /-- STATUS but BUSY. -/
  status  : Status
  /-- PHASE, CMDLATCH and the working values. -/
  engine  : Engine
  /-- The platform's reset input is asserted (R91). -/
  inReset : Bool
  /-- What the host has still to do, next first (30_encoding.md R48). -/
  program : List HostOp
  /-- The values the host's RD and WAIT lines returned, oldest first (70_reset_and_hazards.md R99). -/
  record  : List Word
  /-- The schedule: who moves next, next first. -/
  turns   : List Turn
  /-- The model's own counter of free values drawn (log entries 3 and 4). -/
  draws   : Nat
  deriving DecidableEq, Repr

/-- Reset values of the RW registers (R34). -/
def Regs.reset : Regs :=
  { binLen := 0, txtLen := 0, cntLo := 0, cntHi := 0, timeLo := 0, timeHi := 0, candLo := 0, candHi := 0, candLen := 0 }

/-- Reset values of the result registers; CODE_ASC reads 0, not ASCII zeros (R34). -/
def Results.reset : Results := { binCode := 0, code := 0, codeAscLo := 0, codeAscHi := 0 }

/-- STATUS = 0 after reset (R34). -/
def Status.reset : Status := { done := false, lost := false, matched := false, err := .noError }

/-- PHASE = IDLE, CMDLATCH = 0, no working value (R34). -/
def Engine.reset : Engine := { phase := .idle, cmdLatch := 0, work := none }

/-- The machine right after reset is released (R34, R91). The host has nothing to do, nothing is recorded, the
schedule is empty and no free value is drawn (log entry 6). -/
def State.reset : State :=
  { regs := Regs.reset, results := Results.reset, mem := [], status := Status.reset, engine := Engine.reset,
    inReset := false, program := [], record := [], turns := [], draws := 0 }

end Sys2Proof.Machine
end

