-- ==== Sys2Proof/Machine/Flags.lean ====
section
/-! DEFINITION. STATUS: its BUSY bit and the whole register as the bus reads it (10_state.md R18, R32). -/

namespace Sys2Proof.Machine

/-- The 4-bit code of STATUS.ERR (60_exceptions.md R75). -/
def errBits : ErrCode → BitVec 4
  | .noError => 0
  | .illegalCmd => 1
  | .length => 2
  | .invalidChar => 3
  | .emptyKey => 4

/-- `STATUS.BUSY = (PHASE = RUN)` (R32). -/
def busy (s : State) : Bool :=
  match s.engine.phase with
  | .idle => false
  | .run => true

/-- STATUS: bit 0 BUSY, 1 DONE, 2 LOST, 3 MATCH, `[7:4]` ERR, `[31:8]` read 0 (R18). -/
def statusWord (s : State) : Word :=
  0#24 ++ errBits s.status.err ++ BitVec.ofBool s.status.matched ++ BitVec.ofBool s.status.lost
    ++ BitVec.ofBool s.status.done ++ BitVec.ofBool (busy s)

end Sys2Proof.Machine
end

