-- ==== Sys2Proof/Machine/Ops.lean ====
section
/-! DEFINITION. The shared operations: the byte windows, accepting a command (10_state.md R23), completing it with or
without an error (R24, 60_exceptions.md R73, R74), and the reset input (70_reset_and_hazards.md R91, R92).
There is no return from an error: STATUS keeps the code until the next accept clears it (60_exceptions.md R83). -/

namespace Sys2Proof.Machine

/-! ### The byte windows -/

/-- Offset of TXT's byte 0 (10_state.md R17). -/
@[simp] def txtBase : Nat := 0x100

/-- Offset of BIN's byte 0 (R17). -/
@[simp] def binBase : Nat := 0x200

/-- Offset of DIGEST's byte 0 (R17, R29). -/
@[simp] def digestBase : Nat := 0x040

/-- One byte of the windows; an unlisted byte is 0x00 (R34). -/
def Memory.read : Memory → Nat → Byte
  | [], _ => 0
  | (k, b) :: m, a => if a = k then b else Memory.read m a

/-- Store one byte, keeping the canonical form: a stored 0x00 removes the entry. -/
def Memory.write : Memory → Nat → Byte → Memory
  | [], a, v => if v = 0 then [] else [(a, v)]
  | (k, b) :: m, a, v =>
    if a < k then (if v = 0 then (k, b) :: m else (a, v) :: (k, b) :: m)
    else if a = k then (if v = 0 then m else (a, v) :: m)
    else (k, b) :: Memory.write m a v

/-- The `n` bytes from offset `base` on. -/
def Memory.readBytes (m : Memory) (base n : Nat) : List Byte :=
  (List.range n).map (fun i => Memory.read m (base + i))

/-- Store a byte sequence from offset `base` on. -/
def Memory.writeBytes : Memory → Nat → List Byte → Memory
  | m, _, [] => m
  | m, base, b :: bs => Memory.writeBytes (Memory.write m base b) (base + 1) bs

/-- A window word is `{B[4k+3], B[4k+2], B[4k+1], B[4k]}` (20_memory.md R41). -/
def Memory.readWord (m : Memory) (a : Nat) : Word :=
  ofLanes (Memory.read m a) (Memory.read m (a + 1)) (Memory.read m (a + 2)) (Memory.read m (a + 3))

/-- A word write sets `B[4k+i] <- v[8i+7:8i]` for all four `i` (R41). -/
def Memory.writeWord (m : Memory) (a : Nat) (v : Word) : Memory :=
  Memory.writeBytes m a [lane v 0, lane v 1, lane v 2, lane v 3]

/-- Strictly rising offsets above `lo` and no 0x00 listed. -/
def Memory.wfFrom : Nat → Memory → Bool
  | _, [] => true
  | lo, (k, b) :: m => decide (lo ≤ k) && b != 0 && Memory.wfFrom (k + 1) m

/-- The canonical form: offsets strictly rising, no entry equal to what an unlisted byte reads as. -/
def Memory.wf (m : Memory) : Bool := Memory.wfFrom 0 m

/-- The bytes that exist: DIGEST[0..20), TXT[0..128), BIN[0..80) (10_state.md R17). -/
def isWindowByte (a : Nat) : Bool :=
  (decide (0x040 ≤ a) && decide (a < 0x054)) || (decide (0x100 ≤ a) && decide (a < 0x180))
    || (decide (0x200 ≤ a) && decide (a < 0x250))

/-- Only bytes that exist are listed. -/
def Memory.mapped (m : Memory) : Bool := m.all (fun c => isWindowByte c.1)

/-! ### Commands: accept, complete, error -/

/-- Accept a command word, whatever its value (10_state.md R23). The working values start at a free draw (R32). -/
def accept (w : Word) (s : State) : State :=
  { s with
    status := { done := false, lost := false, matched := false, err := .noError }
    engine := { phase := .run, cmdLatch := w, work := some (Config.freeWork s.draws) }
    draws := s.draws + 1 }

/-- Complete a command with error code `e` and verification result `m` (R24): BUSY 0, DONE 1, ERR, MATCH; LOST and
CMDLATCH keep their values, no working value survives (R32). -/
def complete (e : ErrCode) (m : Bool) (s : State) : State :=
  { s with
    status := { s.status with done := true, matched := m, err := e }
    engine := { s.engine with phase := .idle, work := none } }

/-- `raise Error(e)`: the one way a command ends in an error (60_exceptions.md R73, R82). Only the code is saved;
control goes nowhere. -/
def raiseError (e : ErrCode) (s : State) : State := complete e false s

/-- Run a command's pseudocode `body` and complete (R24, R73, R74): a raised error discards every other write; a
normal end keeps the body's writes, with `match` as the body says. -/
def finish (body : State → Except ErrCode (State × Bool)) (s : State) : Host.Outcome State Fault Refusal :=
  match body s with
  | .error e => .next (raiseError e s)
  | .ok r => .next (complete .noError r.2 r.1)

/-- `TXT[0..m)` and TXT_LEN from a byte sequence of length `m` (40_base32.md R57). -/
def writeTxt (bs : List Byte) (s : State) : State :=
  { s with mem := Memory.writeBytes s.mem txtBase bs, regs := { s.regs with txtLen := BitVec.ofNat 8 bs.length } }

/-- `BIN[0..m)` and BIN_LEN from a byte sequence of length `m` (40_base32.md R59, 42_totp.md R66, R69). -/
def writeBin (bs : List Byte) (s : State) : State :=
  { s with mem := Memory.writeBytes s.mem binBase bs, regs := { s.regs with binLen := BitVec.ofNat 8 bs.length } }

/-! ### The reset input -/

/-- Every register, buffer and hidden value at its reset value (10_state.md R34). -/
def resetBlock (s : State) : State :=
  { s with regs := Regs.reset, results := Results.reset, mem := [], status := Status.reset, engine := Engine.reset }

/-- Reset asserted: a running command is abandoned, none of its results is written (R92; log entry 7). -/
def assertReset (s : State) : State := { resetBlock s with inReset := true }

/-- Reset released: the block has its reset values (R91). Releasing a reset that is not asserted does nothing. -/
def releaseReset (s : State) : State := if s.inReset then { resetBlock s with inReset := false } else s

end Sys2Proof.Machine
end

