-- ==== Sys2Proof/Machine/Operands.lean ====
section
/-! DEFINITION. The implicit operands of the commands (30_encoding.md R55). -/

namespace Sys2Proof.Machine

/-- `BIN[0..BIN_LEN)`; read only where `BIN_LEN <= 80` (10_state.md R31). -/
def binInput (s : State) : List Byte := Memory.readBytes s.mem binBase s.regs.binLen.toNat

/-- `TXT[0..TXT_LEN)`; read only where `TXT_LEN <= 128` (R30). -/
def txtInput (s : State) : List Byte := Memory.readBytes s.mem txtBase s.regs.txtLen.toNat

/-- `CNT = {CNT_HI, CNT_LO}` (R20). -/
def cntValue (s : State) : DWord := s.regs.cntHi ++ s.regs.cntLo

/-- `TIME = {TIME_HI, TIME_LO}` (R21). -/
def timeValue (s : State) : DWord := s.regs.timeHi ++ s.regs.timeLo

/-- `CAND[0..8)`: bytes 0 to 3 are CAND_LO's lanes, bytes 4 to 7 CAND_HI's (R22). -/
def candBytes (s : State) : List Byte :=
  [lane s.regs.candLo 0, lane s.regs.candLo 1, lane s.regs.candLo 2, lane s.regs.candLo 3,
   lane s.regs.candHi 0, lane s.regs.candHi 1, lane s.regs.candHi 2, lane s.regs.candHi 3]

/-- `CAND[0..6)`, the six bytes VERIFY compares (42_totp.md R68). -/
def candSix (s : State) : List Byte := (candBytes s).take 6

end Sys2Proof.Machine
end

