-- ==== Sys2Proof/Machine/Base32.lean ====
section
/-! DEFINITION. Base32: the alphabet (00_scope.md R10), ENCODE and DECODE (40_base32.md R56, R58), and the commands ENC,
DEC and DEC.S (R57, R59). -/

namespace Sys2Proof.Machine

/-! ### Characters (R10) -/

/-- The character of a 5-bit value: `'A' + v` up to 25, then `'2' + (v - 26)`. -/
def b32chr (v : BitVec 5) : Byte :=
  if v.toNat ≤ 25 then BitVec.ofNat 8 (0x41 + v.toNat) else BitVec.ofNat 8 (0x32 + (v.toNat - 26))

/-- The 5-bit value of an alphabet character, or `none`. -/
def b32val (c : Byte) : Option (BitVec 5) :=
  if 0x41 ≤ c.toNat ∧ c.toNat ≤ 0x5A then some (BitVec.ofNat 5 (c.toNat - 0x41))
  else if 0x32 ≤ c.toNat ∧ c.toNat ≤ 0x37 then some (BitVec.ofNat 5 (c.toNat - 0x32 + 26))
  else none

/-- ASCII-only upper-casing. -/
def upcase (c : Byte) : Byte :=
  if 0x61 ≤ c.toNat ∧ c.toNat ≤ 0x7A then BitVec.ofNat 8 (c.toNat - 0x20) else c

/-- An ASCII digit, 0x30 to 0x39. -/
def isdigit (c : Byte) : Bool := decide (0x30 ≤ c.toNat) && decide (c.toNat ≤ 0x39)

/-- Whitespace: 0x09 to 0x0D and 0x20. -/
def isws (c : Byte) : Bool := (decide (0x09 ≤ c.toNat) && decide (c.toNat ≤ 0x0D)) || decide (c.toNat = 0x20)

/-! ### ENCODE (R56) -/

/-- The `while nbits >= 5` loop of R56: characters emitted and bits still pending. `nbits` is at most 12, so two
rounds are enough and fuel `nbits` never runs out. -/
def emitGroups (acc : BitVec 12) : Nat → Nat → List Byte × Nat
  | 0, nbits => ([], nbits)
  | fuel + 1, nbits =>
    if 5 ≤ nbits then
      let r := emitGroups acc fuel (nbits - 5)
      (b32chr ((acc >>> (nbits - 5)).setWidth 5) :: r.1, r.2)
    else ([], nbits)

/-- ENCODE from accumulator `acc` with `nbits` pending bits on. -/
def encodeFrom : BitVec 12 → Nat → List Byte → List Byte
  | acc, nbits, [] => if 0 < nbits then [b32chr ((acc <<< (5 - nbits)).setWidth 5)] else []
  | acc, nbits, b :: bs =>
    let acc' := (acc <<< 8) ||| b.setWidth 12
    let r := emitGroups acc' (nbits + 8) (nbits + 8)
    r.1 ++ encodeFrom acc' r.2 bs

/-- `ENCODE(b)` (R56). -/
def base32Encode (b : List Byte) : List Byte := encodeFrom 0 0 b

/-! ### DECODE (R58) -/

/-- DECODE from accumulator `acc` with `nbits` pending bits on; `none` is the verdict INVALID. -/
def decodeFrom (strict : Bool) : BitVec 12 → Nat → List Byte → Option (List Byte)
  | _, _, [] => some []
  | acc, nbits, t :: ts =>
    match b32val (upcase t) with
    | none => if strict && !isws t then none else decodeFrom strict acc nbits ts
    | some v =>
      let acc' := (acc <<< 5) ||| v.setWidth 12
      if 8 ≤ nbits + 5 then
        (decodeFrom strict acc' (nbits + 5 - 8) ts).map ((acc' >>> (nbits + 5 - 8)).setWidth 8 :: ·)
      else decodeFrom strict acc' (nbits + 5) ts

/-- `DECODE(t, strict)` (R58). -/
def base32Decode (t : List Byte) (strict : Bool) : Option (List Byte) := decodeFrom strict 0 0 t

/-- `DECODE(t, false)` as a byte sequence: the lenient decode is never INVALID (R58), so the `[]` is never taken. -/
def decodeLenient (t : List Byte) : List Byte := (base32Decode t false).getD []

/-! ### ENC, DEC, DEC.S -/

/-- R57. -/
def encBody (s : State) : Except ErrCode (State × Bool) :=
  if Config.binMax < s.regs.binLen.toNat then .error .length
  else .ok (writeTxt (base32Encode (binInput s)) s, false)

/-- R59, for both values of S. -/
def decBody (strict : Bool) (s : State) : Except ErrCode (State × Bool) :=
  if Config.txtMax < s.regs.txtLen.toNat then .error .length
  else
    match base32Decode (txtInput s) strict with
    | none => .error .invalidChar
    | some r => .ok (writeBin r s, false)

/-- ENC (R57). -/
def execEnc (s : State) : Host.Outcome State Fault Refusal := finish encBody s

/-- DEC, lenient (R59). -/
def execDec (s : State) : Host.Outcome State Fault Refusal := finish (decBody false) s

/-- DEC.S, strict (R59). -/
def execDecS (s : State) : Host.Outcome State Fault Refusal := finish (decBody true) s

end Sys2Proof.Machine
end

