-- ==== Sys2Proof/Machine/Control.lean ====
section
/-! DEFINITION. ZERO (43_control.md R71) and the completion of an illegal command word (R72). -/

namespace Sys2Proof.Machine

/-- R71: every register but STATUS, and TXT, BIN and DIGEST, to their reset values. CMDLATCH is no register of the map
and keeps its value. -/
def zeroBody (s : State) : Except ErrCode (State × Bool) :=
  .ok ({ s with regs := Regs.reset, results := Results.reset, mem := [] }, false)

/-- ZERO (R71). -/
def execZero (s : State) : Host.Outcome State Fault Refusal := finish zeroBody s

/-- An illegal command word completes with ILLEGAL_CMD and changes STATUS only (R72, 60_exceptions.md R76). -/
def illegalCommand (s : State) : Host.Outcome State Fault Refusal := finish (fun _ => .error .illegalCmd) s

end Sys2Proof.Machine
end

