-- ==== Sys2Proof/Machine/Sha1.lean ====
section
/-! DEFINITION. SHA-1 (41_hotp.md R61) and HMAC-SHA1 (R62), as the spec writes them out. -/

namespace Sys2Proof.Machine

/-- The five chaining words `H0` to `H4`, and the five working words `a` to `e` of a block. -/
structure Sha1State where
  a : Word
  b : Word
  c : Word
  d : Word
  e : Word
  deriving DecidableEq, Repr

/-- The initial hash value (R61). -/
def sha1Init : Sha1State :=
  { a := 0x67452301, b := 0xEFCDAB89, c := 0x98BADCFE, d := 0x10325476, e := 0xC3D2E1F0 }

/-- `f` of round `t` (R61). -/
def sha1F (t : Nat) (b c d : Word) : Word :=
  if t ≤ 19 then (b &&& c) ||| (~~~b &&& d)
  else if t ≤ 39 then b ^^^ c ^^^ d
  else if t ≤ 59 then (b &&& c) ||| (b &&& d) ||| (c &&& d)
  else b ^^^ c ^^^ d

/-- `K` of round `t` (R61). -/
def sha1K (t : Nat) : Word :=
  if t ≤ 19 then 0x5A827999 else if t ≤ 39 then 0x6ED9EBA1 else if t ≤ 59 then 0x8F1BBCDC else 0xCA62C1D6

/-- One round: `T = rotl32(a, 5) + f + e + K + W[t]`; `e <- d; d <- c; c <- rotl32(b, 30); b <- a; a <- T` (R61). -/
def sha1Round (t : Nat) (w : Word) (h : Sha1State) : Sha1State :=
  { a := h.a.rotateLeft 5 + sha1F t h.b h.c h.d + h.e + sha1K t + w
    b := h.a
    c := h.b.rotateLeft 30
    d := h.c
    e := h.d }

/-- The rounds from round `t` on, one for each word of the schedule. -/
def sha1Rounds : Nat → List Word → Sha1State → Sha1State
  | _, [], h => h
  | t, w :: ws, h => sha1Rounds (t + 1) ws (sha1Round t w h)

/-- `n` more schedule words, newest first: `W[t] = rotl32(W[t-3] ^ W[t-8] ^ W[t-14] ^ W[t-16], 1)` (R61). The list has
at least 16 words, so the 0 past its end is never read. -/
def sha1Extend : Nat → List Word → List Word
  | 0, ws => ws
  | n + 1, ws =>
    sha1Extend n ((ws.getD 2 0 ^^^ ws.getD 7 0 ^^^ ws.getD 13 0 ^^^ ws.getD 15 0).rotateLeft 1 :: ws)

/-- The 80 words `W[0..80)` of a 64-byte block (R61). -/
def sha1Schedule (x : List Byte) : List Word :=
  (sha1Extend 64 ((List.range 16).map (fun t => be32 x (4 * t))).reverse).reverse

/-- One block: 80 rounds, then `Hi <- (Hi + ...) mod 2^32` (R61). -/
def sha1Block (h : Sha1State) (x : List Byte) : Sha1State :=
  let r := sha1Rounds 0 (sha1Schedule x) h
  { a := h.a + r.a, b := h.b + r.b, c := h.c + r.c, d := h.d + r.d, e := h.e + r.e }

/-- `k`, the least `k >= 0` with `(L + 1 + k) mod 64 == 56` (R61). -/
def sha1PadZeros (len : Nat) : Nat := (119 - len % 64) % 64

/-- `P = M ++ [0x80] ++ [0x00] * k ++ be64bytes(8 * L)` (R61). -/
def sha1Pad (m : List Byte) : List Byte :=
  m ++ [0x80] ++ List.replicate (sha1PadZeros m.length) 0 ++ be64bytes (BitVec.ofNat 64 (8 * m.length))

/-- The first `n` 64-byte blocks of `p`, in order. -/
def blocks64 : Nat → List Byte → List (List Byte)
  | 0, _ => []
  | n + 1, p => p.take 64 :: blocks64 n (p.drop 64)

/-- The 20 digest bytes of a chaining state, each word big-endian (R61). -/
def sha1Bytes (h : Sha1State) : List Byte :=
  be32bytes h.a ++ be32bytes h.b ++ be32bytes h.c ++ be32bytes h.d ++ be32bytes h.e

/-- `SHA1(M)` (R61). -/
def sha1 (m : List Byte) : List Byte :=
  sha1Bytes ((blocks64 ((sha1Pad m).length / 64) (sha1Pad m)).foldl sha1Block sha1Init)

/-- `K0`: the key, hashed first when longer than 64 bytes, zero-padded to 64 bytes (R62). -/
def hmacKey (k : List Byte) : List Byte :=
  let k1 := if 64 < k.length then sha1 k else k
  k1 ++ List.replicate (64 - k1.length) 0

/-- `HMAC_SHA1(K, m)` (R62). -/
def hmacSha1 (k m : List Byte) : List Byte :=
  let inner := sha1 ((hmacKey k).map (· ^^^ 0x36) ++ m)
  sha1 ((hmacKey k).map (· ^^^ 0x5C) ++ inner)

end Sys2Proof.Machine
end

