-- ==== Sys2Proof/Machine/Hotp.lean ====
section
/-! DEFINITION. HOTPCALC (41_hotp.md R63), the result registers it fills (10_state.md R26 to R29), and the command HOTP
(R64). -/

namespace Sys2Proof.Machine

/-- What HOTPCALC gives: the digest, `binCode`, the numeric code and its six characters (R63). -/
structure HotpResult where
  digest  : List Byte
  binCode : Word
  code    : Nat
  asc     : List Byte
  deriving DecidableEq, Repr

/-- `binCode`: `be32(d, d[19] & 0x0F) & 0x7FFFFFFF` (R63). -/
def truncate (d : List Byte) : Word := be32 d (d.getD 19 0 &&& 0x0F).toNat &&& 0x7FFFFFFF

/-- Character `i` of a code, character 0 leftmost: `0x30 + ((code div 10^(5-i)) mod 10)` (R63). -/
def codeChar (code i : Nat) : Byte := BitVec.ofNat 8 (0x30 + code / 10 ^ (5 - i) % 10)

/-- The steps of HOTPCALC after the digest: truncation, `mod 10^6`, decimal rendering (R63). -/
def ofDigest (d : List Byte) : HotpResult :=
  { digest := d
    binCode := truncate d
    code := (truncate d).toNat % Config.codeModulus
    asc := (List.range 6).map (codeChar ((truncate d).toNat % Config.codeModulus)) }

/-- `HOTPCALC(K, c)` (R63). -/
def hotpCalc (k : List Byte) (c : DWord) : HotpResult := ofDigest (hmacSha1 k (be64bytes c))

/-- The result registers of a HOTPCALC result: `CODE_ASC_LO = {asc[3], asc[2], asc[1], asc[0]}`,
`CODE_ASC_HI = {0x0000, asc[5], asc[4]}` (R64, 10_state.md R26 to R28). -/
def resultRegs (r : HotpResult) : Results :=
  { binCode := r.binCode
    code := BitVec.ofNat 32 r.code
    codeAscLo := ofLanes (r.asc.getD 0 0) (r.asc.getD 1 0) (r.asc.getD 2 0) (r.asc.getD 3 0)
    codeAscHi := ofLanes (r.asc.getD 4 0) (r.asc.getD 5 0) 0 0 }

/-- Write DIGEST, BINCODE, CODE, CODE_ASC_LO and CODE_ASC_HI (R64). -/
def writeResults (r : HotpResult) (s : State) : State :=
  { s with mem := Memory.writeBytes s.mem digestBase r.digest, results := resultRegs r }

/-- R64. LENGTH comes before EMPTY_KEY (60_exceptions.md R81). -/
def hotpBody (s : State) : Except ErrCode (State × Bool) :=
  if Config.binMax < s.regs.binLen.toNat then .error .length
  else if s.regs.binLen.toNat = 0 then .error .emptyKey
  else .ok (writeResults (hotpCalc (binInput s) (cntValue s)) s, false)

/-- HOTP (R64). -/
def execHotp (s : State) : Host.Outcome State Fault Refusal := finish hotpBody s

end Sys2Proof.Machine
end

