-- ==== Sys2Proof/Machine/Totp.lean ====
section
/-! DEFINITION. The TOTP counter (42_totp.md R65), the format gate (R67), the window comparison (R68), and the commands
TOTP (R66) and VERIFY (R69). -/

namespace Sys2Proof.Machine

/-- `TCOUNT(T) = T div 30`, exact (R65). -/
def tcount (t : DWord) : Nat := t.toNat / Config.period

/-- `c + delta`, or `none` where it would be negative (R68, 90_conflicts.md C2). -/
def windowCounter : WindowPos → Nat → Option Nat
  | .before, 0 => none
  | .before, c + 1 => some c
  | .current, c => some c
  | .after, c => some (c + 1)

/-- The code of one window position equals the candidate; a skipped position is no match (R68). -/
def windowHit (k : List Byte) (c : Nat) (cand : List Byte) (p : WindowPos) : Bool :=
  match windowCounter p c with
  | none => false
  | some n => (hotpCalc k (BitVec.ofNat 64 n)).asc == cand

/-- `WINDOW(k, c, cand)`, in the source's order -1, 0, +1 (R68). -/
def windowMatch (k : List Byte) (c : Nat) (cand : List Byte) : Bool :=
  [WindowPos.before, WindowPos.current, WindowPos.after].any (windowHit k c cand)

/-- `FMT_OK`: CAND_LEN = 6 and `CAND[0..6)` all ASCII digits (R67). -/
def fmtOk (s : State) : Bool := decide (s.regs.candLen.toNat = 6) && (candSix s).all isdigit

/-- The secret a TOTP or VERIFY decodes from TXT, leniently (R66, R69, 30_encoding.md R51). -/
def secretOf (s : State) : List Byte := decodeLenient (txtInput s)

/-- R66. -/
def totpBody (s : State) : Except ErrCode (State × Bool) :=
  if Config.txtMax < s.regs.txtLen.toNat then .error .length
  else if (secretOf s).length = 0 then .error .emptyKey
  else
    .ok (writeResults (hotpCalc (secretOf s) (BitVec.ofNat 64 (tcount (timeValue s)))) (writeBin (secretOf s) s), false)

/-- R69. -/
def verifyBody (s : State) : Except ErrCode (State × Bool) :=
  if Config.txtMax < s.regs.txtLen.toNat then .error .length
  else if fmtOk s = false then .ok (s, false)
  else if (secretOf s).length = 0 then .ok (writeBin (secretOf s) s, false)
  else .ok (writeBin (secretOf s) s, windowMatch (secretOf s) (tcount (timeValue s)) (candSix s))

/-- TOTP (R66). -/
def execTotp (s : State) : Host.Outcome State Fault Refusal := finish totpBody s

/-- VERIFY (R69). -/
def execVerify (s : State) : Host.Outcome State Fault Refusal := finish verifyBody s

end Sys2Proof.Machine
end

