-- ==== Sys2Proof/Machine/Dispatch.lean ====
section
/-! DEFINITION. The meaning of each command: one arm per constructor of Instr (30_encoding.md R50). -/

namespace Sys2Proof.Machine

/-- What a command does at its completion (10_state.md R24). -/
def exec (i : Instr) (s : State) : Host.Outcome State Fault Refusal :=
  match i with
  | .enc => Sys2Proof.Machine.execEnc s
  | .dec => Sys2Proof.Machine.execDec s
  | .decS => Sys2Proof.Machine.execDecS s
  | .hotp => Sys2Proof.Machine.execHotp s
  | .totp => Sys2Proof.Machine.execTotp s
  | .verify => Sys2Proof.Machine.execVerify s
  | .zero => Sys2Proof.Machine.execZero s

end Sys2Proof.Machine
end

