-- ==== Sys2Proof/Machine/Engine.lean ====
section
/-! DEFINITION. The engine: it runs the command in CMDLATCH to completion (10_state.md R15, R24). -/

namespace Sys2Proof.Machine

/-- The word the engine runs: CMDLATCH (10_state.md R23, R32). The block fetches nothing else (20_memory.md R47). -/
def fetchWord (s : State) : Word := s.engine.cmdLatch

/-- The running command completes: a legal word has its meaning, any other completes with ILLEGAL_CMD
(30_encoding.md R52). -/
def completeLatched (s : State) : Host.Outcome State Fault Refusal :=
  match decode (fetchWord s) with
  | .ok i => exec i s
  | .error _ => illegalCommand s

/-- A completion turn; an idle engine does nothing (R15). -/
def engineComplete (s : State) : Host.Outcome State Fault Refusal :=
  match s.engine.phase with
  | .idle => .next s
  | .run => completeLatched s

/-- A cycle of a running command passes: only its working values move (R24, R32). -/
def engineCycle (s : State) : State :=
  match s.engine.phase with
  | .idle => s
  | .run => { s with engine := { s.engine with work := some (Config.freeWork s.draws) }, draws := s.draws + 1 }

/-- The next turn. With the schedule used up, a running command completes (weak fairness, 70_reset_and_hazards.md R98)
and otherwise the host moves (log entry 2). -/
def nextTurn (s : State) : Turn :=
  match s.turns with
  | t :: _ => t
  | [] =>
    match s.engine.phase with
    | .idle => .host
    | .run => .complete

/-- The turn is taken off the schedule. -/
def popTurn (s : State) : State := { s with turns := s.turns.tail }

end Sys2Proof.Machine
end

