-- ==== Sys2Proof/Machine/Bus.lean ====
section
/-! DEFINITION. The bus: the register map (10_state.md R17), BusRead and BusWrite (20_memory.md R36 to R45), and the
block's window of the host's address space (R38). -/

namespace Sys2Proof.Machine

/-- What a window word is. -/
inductive Target where
  /-- A register of the map. -/
  | reg (r : RegName)
  /-- Word `k` of the TXT window. -/
  | txt (k : Nat)
  /-- Word `k` of the BIN window. -/
  | bin (k : Nat)
  /-- A reserved offset. -/
  | reserved
  deriving DecidableEq, Repr

/-- A register's offset (10_state.md R17). -/
def regOffset : RegName → Offset
  | .cmd => 0x000
  | .status => 0x004
  | .binLen => 0x008
  | .txtLen => 0x00C
  | .cntLo => 0x010
  | .cntHi => 0x014
  | .timeLo => 0x018
  | .timeHi => 0x01C
  | .candLo => 0x020
  | .candHi => 0x024
  | .candLen => 0x028
  | .binCode => 0x030
  | .code => 0x034
  | .codeAscLo => 0x038
  | .codeAscHi => 0x03C
  | .digest0 => 0x040
  | .digest1 => 0x044
  | .digest2 => 0x048
  | .digest3 => 0x04C
  | .digest4 => 0x050

/-- The words from offset 0x000 on, one a line of R17's table; 0x02C is reserved. -/
def mapTable : List Target :=
  [.reg .cmd, .reg .status, .reg .binLen, .reg .txtLen,
   .reg .cntLo, .reg .cntHi, .reg .timeLo, .reg .timeHi,
   .reg .candLo, .reg .candHi, .reg .candLen, .reserved,
   .reg .binCode, .reg .code, .reg .codeAscLo, .reg .codeAscHi,
   .reg .digest0, .reg .digest1, .reg .digest2, .reg .digest3, .reg .digest4]

/-- What window word `n` (offset `4n`) is (R17); past the table all but the two windows is reserved (20_memory.md R39). -/
def targetOfWord (n : Nat) : Target :=
  if 64 ≤ n ∧ n < 96 then .txt (n - 64)
  else if 128 ≤ n ∧ n < 148 then .bin (n - 128)
  else mapTable.getD n .reserved

/-- The block decodes offset bits `[11:2]` only (20_memory.md R38). -/
def targetOf (off : Offset) : Target := targetOfWord (off.toNat / 4)

/-- The value of a register as an idle read returns it; CMD reads 0, RAZ bits read 0 (R33, R36). -/
def regRead (r : RegName) (s : State) : Word :=
  match r with
  | .cmd => 0
  | .status => statusWord s
  | .binLen => s.regs.binLen.setWidth 32
  | .txtLen => s.regs.txtLen.setWidth 32
  | .cntLo => s.regs.cntLo
  | .cntHi => s.regs.cntHi
  | .timeLo => s.regs.timeLo
  | .timeHi => s.regs.timeHi
  | .candLo => s.regs.candLo
  | .candHi => s.regs.candHi
  | .candLen => s.regs.candLen.setWidth 32
  | .binCode => s.results.binCode
  | .code => s.results.code
  | .codeAscLo => s.results.codeAscLo
  | .codeAscHi => s.results.codeAscHi
  | .digest0 => Memory.readWord s.mem digestBase
  | .digest1 => Memory.readWord s.mem (digestBase + 4)
  | .digest2 => Memory.readWord s.mem (digestBase + 8)
  | .digest3 => Memory.readWord s.mem (digestBase + 12)
  | .digest4 => Memory.readWord s.mem (digestBase + 16)

/-- The value of a window word as an idle read returns it (R36, R39, R41). -/
def idleRead (t : Target) (s : State) : Word :=
  match t with
  | .reg r => regRead r s
  | .txt k => Memory.readWord s.mem (txtBase + 4 * k)
  | .bin k => Memory.readWord s.mem (binBase + 4 * k)
  | .reserved => 0

/-- `BusRead(off)` (R36, R40): the value and the state after. While busy every word but STATUS reads as a free draw;
only the model's draw counter moves, no read has a side effect on the block (R45). -/
def busRead (off : Offset) (s : State) : Word × State :=
  if busy s = true ∧ targetOf off ≠ .reg .status then (Config.freeWord s.draws, { s with draws := s.draws + 1 })
  else (idleRead (targetOf off) s, s)

/-- An idle write to a register: RW registers store, lengths their low 8 bits (R19, R22, R33); CMD accepts a command
(R23); RO registers ignore it (R37). -/
def regWrite (r : RegName) (v : Word) (s : State) : State :=
  match r with
  | .cmd => accept v s
  | .status => s
  | .binLen => { s with regs := { s.regs with binLen := v.setWidth 8 } }
  | .txtLen => { s with regs := { s.regs with txtLen := v.setWidth 8 } }
  | .cntLo => { s with regs := { s.regs with cntLo := v } }
  | .cntHi => { s with regs := { s.regs with cntHi := v } }
  | .timeLo => { s with regs := { s.regs with timeLo := v } }
  | .timeHi => { s with regs := { s.regs with timeHi := v } }
  | .candLo => { s with regs := { s.regs with candLo := v } }
  | .candHi => { s with regs := { s.regs with candHi := v } }
  | .candLen => { s with regs := { s.regs with candLen := v.setWidth 8 } }
  | .binCode => s
  | .code => s
  | .codeAscLo => s
  | .codeAscHi => s
  | .digest0 => s
  | .digest1 => s
  | .digest2 => s
  | .digest3 => s
  | .digest4 => s

/-- An idle write to a window word (R37, R39, R41). -/
def idleWrite (t : Target) (v : Word) (s : State) : State :=
  match t with
  | .reg r => regWrite r v s
  | .txt k => { s with mem := Memory.writeWord s.mem (txtBase + 4 * k) v }
  | .bin k => { s with mem := Memory.writeWord s.mem (binBase + 4 * k) v }
  | .reserved => s

/-- A write while busy is dropped and sets LOST (10_state.md R25). -/
def dropWrite (s : State) : State := { s with status := { s.status with lost := true } }

/-- `BusWrite(off, v)` (R37, 10_state.md R25). -/
def busWrite (off : Offset) (v : Word) (s : State) : State :=
  if busy s = true then dropWrite s else idleWrite (targetOf off) v s

/-- The offset a host address selects in the block: the block occupies `BASE` to `BASE + 0xFFF` and sees no other
address (R38). -/
def windowOffset (addr : Nat) : Option Offset :=
  if Config.base ≤ addr ∧ addr < Config.base + Config.windowSize then some (BitVec.ofNat 12 (addr - Config.base))
  else none

end Sys2Proof.Machine
end

