-- ==== Sys2Proof/Machine/HostAgent.lean ====
section
/-! DEFINITION. The host: one turn performs one bus access of its program (00_scope.md R12, 30_encoding.md R48, R54). -/

namespace Sys2Proof.Machine

/-- The offset a pending host operation accesses, or `none` where it does not reach the block (20_memory.md R38). -/
def selects : HostOp → Option Offset
  | .rd off => some off
  | .wr off _ => some off
  | .wait => some (regOffset .status)
  | .rdAddr addr => windowOffset addr
  | .wrAddr addr _ => windowOffset addr

/-- `RD`: the read's value joins the record (R48). -/
def hostRead (off : Offset) (s : State) : State :=
  let r := busRead off s
  { r.2 with record := r.2.record ++ [r.1] }

/-- One access of `WAIT` (R54): read STATUS; while BUSY the WAIT stays first in the program, else its last value joins
the record and the host goes on with `rest`. -/
def hostWait (rest : List HostOp) (s : State) : State :=
  if busy s = true then s else { s with program := rest, record := s.record ++ [statusWord s] }

/-- The access `op` at offset `off`, with `rest` still to do after it. -/
def hostAccess (op : HostOp) (rest : List HostOp) (off : Offset) (s : State) : State :=
  match op with
  | .rd _ => hostRead off { s with program := rest }
  | .rdAddr _ => hostRead off { s with program := rest }
  | .wr _ v => busWrite off v { s with program := rest }
  | .wrAddr _ v => busWrite off v { s with program := rest }
  | .wait => hostWait rest s

/-- A host turn: its next access, if it has one. An access that does not reach the block changes nothing in it; one
made while reset is asserted is a fault of the host program (70_reset_and_hazards.md R92). -/
def hostTurn (s : State) : Host.Outcome State Fault Refusal :=
  match s.program with
  | [] => .next s
  | op :: rest =>
    match selects op with
    | none => .next { s with program := rest }
    | some off => if s.inReset then .fault .accessInReset else .next (hostAccess op rest off s)

end Sys2Proof.Machine
end

