-- ==== Sys2Proof/Machine/Program.lean ====
section
/-! DEFINITION. The host assembly: what each line expands to (30_encoding.md R48, R54). -/

namespace Sys2Proof.Machine

/-- The offset of a `<reg>` (R48). -/
def locOffset : Loc → Offset
  | .reg r => regOffset r
  | .txt k => BitVec.ofNat 12 (txtBase + 4 * k)
  | .bin k => BitVec.ofNat 12 (binBase + 4 * k)
  | .literal off => BitVec.ofNat 12 off

/-- The words of a byte sequence, four lanes each, missing bytes 0x00 (R54). -/
def packWords : List Byte → List Word
  | [] => []
  | [a] => [ofLanes a 0 0 0]
  | [a, b] => [ofLanes a b 0 0]
  | [a, b, c] => [ofLanes a b c 0]
  | a :: b :: c :: d :: rest => ofLanes a b c d :: packWords rest

/-- Writes of consecutive words from byte offset `base` on. -/
def writeRun : Nat → List Word → List HostOp
  | _, [] => []
  | base, w :: ws => .wr (BitVec.ofNat 12 base) w :: writeRun (base + 4) ws

/-- `WR <reg>, <imm>`. -/
def wrReg (r : RegName) (v : Word) : HostOp := .wr (regOffset r) v

/-- A command line: `BusWrite(0x000, word)` (R48). -/
def issue (i : Instr) : HostOp := wrReg .cmd (encode i)

/-- The expansion of a line (R48, R54). -/
def expandLine : Line → List HostOp
  | .wr l imm => [.wr (locOffset l) (BitVec.ofNat 32 imm)]
  | .rd l => [.rd (locOffset l)]
  | .cmd i => [issue i]
  | .wait => [.wait]
  | .ldTxt s => writeRun txtBase (packWords s) ++ [wrReg .txtLen (BitVec.ofNat 32 s.length)]
  | .ldBin b => writeRun binBase (packWords b) ++ [wrReg .binLen (BitVec.ofNat 32 b.length)]
  | .ldCand s =>
    [wrReg .candLo (ofLanes (s.getD 0 0) (s.getD 1 0) (s.getD 2 0) (s.getD 3 0)),
     wrReg .candHi (ofLanes (s.getD 4 0) (s.getD 5 0) (s.getD 6 0) (s.getD 7 0)),
     wrReg .candLen (BitVec.ofNat 32 s.length)]
  | .ldCnt u => [wrReg .cntLo (u.extractLsb' 0 32), wrReg .cntHi (u.extractLsb' 32 32)]
  | .ldTime u => [wrReg .timeLo (u.extractLsb' 0 32), wrReg .timeHi (u.extractLsb' 32 32)]
  | .run i => [issue i, .wait]

/-- The bus accesses of a program; `none` where a line is ill formed. -/
def expandProgram (p : List Line) : Option (List HostOp) :=
  if p.all Line.wf then some (p.flatMap expandLine) else none

end Sys2Proof.Machine
end

