-- ==== Sys2Proof/Machine/Step.lean ====
section
/-! DEFINITION. One step of the machine: one turn of one agent (00_scope.md R12). -/

namespace Sys2Proof.Machine

/-- What a turn does. -/
def takeTurn (t : Turn) (s : State) : Host.Outcome State Fault Refusal :=
  match t with
  | .host => hostTurn s
  | .cycle => .next (engineCycle s)
  | .complete => engineComplete s
  | .assertReset => .next (assertReset s)
  | .releaseReset => .next (releaseReset s)

/-- One step: the next turn of the schedule. -/
def step (s : State) : Host.Outcome State Fault Refusal := takeTurn (nextTurn s) (popTurn s)

/-- `s` with the command word `w` accepted (10_state.md R23) and the next turn its completion, outside reset: the very
next step runs it (log entry 6). -/
def State.withFetchWord (s : State) (nbits w : Nat) : State :=
  { accept (BitVec.ofNat 32 (w % 2 ^ nbits)) s with turns := .complete :: s.turns, inReset := false }

end Sys2Proof.Machine
end

