-- ==== Sys2Proof/Machine/BitStream.lean ====
section
/-! DEFINITION. Base32 as the spec's prose has it, over bit streams (40_base32.md R56, R58): the clear form that the
accumulator pseudocode of Machine/Base32.lean is claimed equal to. The machine itself runs the pseudocode. -/

namespace Sys2Proof.Machine

/-- The bits of a value, most significant first. -/
def bitsMsb {w : Nat} (v : BitVec w) : List Bool := (List.range w).map (fun i => v.getMsbD i)

/-- The number a bit sequence stands for, most significant bit first. -/
def ofBitsMsb (l : List Bool) : Nat := l.foldl (fun n b => 2 * n + b.toNat) 0

/-- "consume bits 5 at a time (most-significant-first)"; a last short group is filled with zero bits on the right
(R56). -/
def groups5 : List Bool → List (BitVec 5)
  | [] => []
  | [a] => [BitVec.ofNat 5 (ofBitsMsb [a, false, false, false, false])]
  | [a, b] => [BitVec.ofNat 5 (ofBitsMsb [a, b, false, false, false])]
  | [a, b, c] => [BitVec.ofNat 5 (ofBitsMsb [a, b, c, false, false])]
  | [a, b, c, d] => [BitVec.ofNat 5 (ofBitsMsb [a, b, c, d, false])]
  | a :: b :: c :: d :: e :: rest => BitVec.ofNat 5 (ofBitsMsb [a, b, c, d, e]) :: groups5 rest

/-- "emit one byte (the top 8 bits) and retain the remainder"; trailing bits smaller than 8 are discarded (R58). -/
def groups8 : List Bool → List Byte
  | a :: b :: c :: d :: e :: f :: g :: h :: rest => BitVec.ofNat 8 (ofBitsMsb [a, b, c, d, e, f, g, h]) :: groups8 rest
  | _ => []

/-- The bit stream of a byte sequence, 8 bits per byte (R56). -/
def byteStream (b : List Byte) : List Bool := b.flatMap bitsMsb

/-- The 5-bit values of the alphabet characters of a text, in order, every other character dropped (R58). -/
def alphabetValues (t : List Byte) : List (BitVec 5) := t.filterMap (fun c => b32val (upcase c))

/-- A byte the strict decode rejects: neither an alphabet character after `upcase` nor whitespace (R58,
60_exceptions.md R78). -/
def isBadChar (c : Byte) : Bool := (b32val (upcase c)).isNone && !isws c

end Sys2Proof.Machine
end

