-- ==== Sys2Proof/Safety.lean ====
section
/-! DEFINITION. What claims speak of: the machine's invariant, the end of a run and its observation
(70_reset_and_hazards.md R99). -/

namespace Sys2Proof.Machine

/-- DIGEST as a byte sequence (10_state.md R29). -/
def digestBytes (s : State) : List Byte := Memory.readBytes s.mem digestBase Config.digestLen

/-- Legal STATUS values: "BUSY = 1 implies DONE = 0, MATCH = 0 and ERR = 0; MATCH = 1 implies DONE = 1 and ERR = 0"
(R18). -/
def statusLegal (s : State) : Prop :=
  (busy s = true → s.status.done = false ∧ s.status.matched = false ∧ s.status.err = .noError) ∧
  (s.status.matched = true → s.status.done = true ∧ s.status.err = .noError)

/-- The result registers are all at their reset values, DIGEST among them, or all follow from DIGEST (R26 to R29,
41_hotp.md R63). -/
def resultsCoherent (s : State) : Prop :=
  (s.results = Results.reset ∧ digestBytes s = List.replicate 20 0) ∨
  s.results = resultRegs (ofDigest (digestBytes s))

/-- The block's registers, buffers and hidden values have their reset values (R34). -/
def blockAtReset (s : State) : Prop :=
  s.regs = Regs.reset ∧ s.results = Results.reset ∧ s.mem = [] ∧ s.status = Status.reset ∧ s.engine = Engine.reset

/-- What every step keeps. -/
structure Inv (s : State) : Prop where
  /-- The byte windows are in canonical form. -/
  memWf : Memory.wf s.mem = true
  /-- Only bytes that exist are listed (R17). -/
  memMapped : Memory.mapped s.mem = true
  /-- STATUS has a legal value (R18). -/
  status : statusLegal s
  /-- The result registers belong together. -/
  results : resultsCoherent s
  /-- Working values exist during RUN only (R32). -/
  work : s.engine.phase = .idle → s.engine.work = none
  /-- While reset is asserted the block has its reset values (R91, log entry 7). -/
  reset : s.inReset = true → blockAtReset s

/-- A run has ended when the host has performed its last access and BUSY = 0 (R99). -/
def runEnded (s : State) : Prop := s.program = [] ∧ busy s = false

/-- A run's observation: the values its RD lines returned, and the block's state (R99). -/
def observation (s : State) : List Word × Regs × Results × Memory × Status × Engine :=
  (s.record, s.regs, s.results, s.mem, s.status, s.engine)

end Sys2Proof.Machine
end

