-- ==== Sys2Proof/Certificates/Slice0/Obligations.lean ====
section
/-! DEFINITION. The statements for the provers, from the numbered rules of spec/. -/

open Sys2Proof Sys2Proof.Machine

namespace Sys2Proof.Spec

/-- STATUS after a command's completion with error code `e` and MATCH `m`: DONE 1, LOST kept (10_state.md R24). -/
def statusAfter (s : State) (e : ErrCode) (m : Bool) : Status :=
  { done := true, lost := s.status.lost, matched := m, err := e }

/-- The hidden state after a completion: IDLE, CMDLATCH kept, no working value (R24, R32). -/
def engineAfter (s : State) : Engine := { phase := .idle, cmdLatch := s.engine.cmdLatch, work := none }

/-- A state that differs from `s` only by a completion that raised `e` (60_exceptions.md R73, R74). -/
def errored (s : State) (e : ErrCode) : State := { s with status := statusAfter s e false, engine := engineAfter s }

/-- `TXT[0..n)`. -/
def txtBytes (s : State) (n : Nat) : List Byte := (List.range n).map (fun i => Memory.read s.mem (0x100 + i))

/-- `BIN[0..n)`. -/
def binBytes (s : State) (n : Nat) : List Byte := (List.range n).map (fun i => Memory.read s.mem (0x200 + i))

/-- `DIGEST[0..20)`. -/
def digest (s : State) : List Byte := (List.range 20).map (fun j => Memory.read s.mem (0x040 + j))

/-- The secret a TOTP or VERIFY decodes: the lenient decode of `TXT[0..TXT_LEN)`. -/
def secret (s : State) : List Byte := decodeLenient (txtBytes s s.regs.txtLen.toNat)

/-- `t` holds the byte sequence `bs` from offset `base` on, and every other byte of the windows as `s` does. -/
def storedAt (base : Nat) (bs : List Byte) (s t : State) : Prop :=
  (∀ i, i < bs.length → Memory.read t.mem (base + i) = bs.getD i 0) ∧
  (∀ a, a < base ∨ base + bs.length ≤ a → Memory.read t.mem a = Memory.read s.mem a)

/-- Byte `i` of the candidate: CAND_LO's lanes, then CAND_HI's (10_state.md R22). -/
def candByte (s : State) (i : Nat) : Byte :=
  if i < 4 then s.regs.candLo.extractLsb' (8 * i) 8 else s.regs.candHi.extractLsb' (8 * (i - 4)) 8

/-- The decoder as 30_encoding.md section 3 writes it out. -/
def decoder (w : Word) : Option Instr :=
  if w = 0x00000001 then some .enc
  else if w = 0x00000002 then some .dec
  else if w = 0x00000102 then some .decS
  else if w = 0x00000003 then some .hotp
  else if w = 0x00000004 then some .totp
  else if w = 0x00000005 then some .verify
  else if w = 0x00000006 then some .zero
  else none

/-- `s` and `s'` hold the same operands of command `i`, as the table of 30_encoding.md R55 lists them. -/
def sameOperands (i : Instr) (s s' : State) : Prop :=
  match i with
  | .enc => s.regs.binLen = s'.regs.binLen ∧ binBytes s s.regs.binLen.toNat = binBytes s' s'.regs.binLen.toNat
  | .dec => s.regs.txtLen = s'.regs.txtLen ∧ txtBytes s s.regs.txtLen.toNat = txtBytes s' s'.regs.txtLen.toNat
  | .decS => s.regs.txtLen = s'.regs.txtLen ∧ txtBytes s s.regs.txtLen.toNat = txtBytes s' s'.regs.txtLen.toNat
  | .hotp =>
    s.regs.binLen = s'.regs.binLen ∧ binBytes s s.regs.binLen.toNat = binBytes s' s'.regs.binLen.toNat ∧
      s.regs.cntLo = s'.regs.cntLo ∧ s.regs.cntHi = s'.regs.cntHi
  | .totp =>
    s.regs.txtLen = s'.regs.txtLen ∧ txtBytes s s.regs.txtLen.toNat = txtBytes s' s'.regs.txtLen.toNat ∧
      s.regs.timeLo = s'.regs.timeLo ∧ s.regs.timeHi = s'.regs.timeHi
  | .verify =>
    s.regs.txtLen = s'.regs.txtLen ∧ txtBytes s s.regs.txtLen.toNat = txtBytes s' s'.regs.txtLen.toNat ∧
      s.regs.timeLo = s'.regs.timeLo ∧ s.regs.timeHi = s'.regs.timeHi ∧ s.regs.candLo = s'.regs.candLo ∧
      s.regs.candHi = s'.regs.candHi ∧ s.regs.candLen = s'.regs.candLen
  | .zero => True

/-- `t` and `t'` hold the same outputs of command `i`, as the table of 10_state.md R35 lists them, STATUS aside. -/
def sameOutputs (i : Instr) (t t' : State) : Prop :=
  match i with
  | .enc => t.regs.txtLen = t'.regs.txtLen ∧ txtBytes t t.regs.txtLen.toNat = txtBytes t' t'.regs.txtLen.toNat
  | .dec => t.regs.binLen = t'.regs.binLen ∧ binBytes t t.regs.binLen.toNat = binBytes t' t'.regs.binLen.toNat
  | .decS => t.regs.binLen = t'.regs.binLen ∧ binBytes t t.regs.binLen.toNat = binBytes t' t'.regs.binLen.toNat
  | .hotp => t.results = t'.results ∧ digest t = digest t'
  | .totp =>
    t.regs.binLen = t'.regs.binLen ∧ binBytes t t.regs.binLen.toNat = binBytes t' t'.regs.binLen.toNat ∧
      t.results = t'.results ∧ digest t = digest t'
  | .verify =>
    fmtOk t = true → t.regs.binLen = t'.regs.binLen ∧
      binBytes t t.regs.binLen.toNat = binBytes t' t'.regs.binLen.toNat
  | .zero => t.regs = t'.regs ∧ t.results = t'.results ∧ t.mem = t'.mem

/-- The next turn is a completion of the running command `i`. -/
def completes (s : State) (i : Instr) : Prop :=
  nextTurn s = .complete ∧ s.engine.phase = .run ∧ s.engine.cmdLatch = encode i

/-- The next turn is the platform's. -/
def resetTurn (s : State) : Prop := nextTurn s = .assertReset ∨ nextTurn s = .releaseReset

end Sys2Proof.Spec

open Sys2Proof.Spec

/-! ### Encoding -/

/-- R50: exactly seven command words are legal, and each decodes to its command and back. -/
def Obligations.DecodeAcceptsExactlyTheSevenWords : Prop :=
  (∀ (w : Word) (i : Instr), decode w = .ok i ↔ w = encode i) ∧
  encode .enc = 0x00000001 ∧ encode .dec = 0x00000002 ∧ encode .decS = 0x00000102 ∧ encode .hotp = 0x00000003 ∧
  encode .totp = 0x00000004 ∧ encode .verify = 0x00000005 ∧ encode .zero = 0x00000006

/-- The field decoder of R49 is the word-by-word decoder of 30_encoding.md section 3. -/
def Obligations.FieldDecoderIsTheSpecsDecoder : Prop :=
  ∀ w : Word, (decode w).toOption = decoder w

/-- R52's particular cases: a 1 in bits `[7:4]` or `[31:9]`, OP = 0x0 or 0x7 to 0xF, S with an OP other than 0x2. -/
def Obligations.ReservedAndStrictWordsAreIllegal : Prop :=
  ∀ w : Word,
    ((∃ k, (4 ≤ k ∧ k ≤ 7 ∨ 9 ≤ k ∧ k ≤ 31) ∧ w.getLsbD k = true) ∨
      w.toNat % 16 = 0 ∨ 7 ≤ w.toNat % 16 ∨
      (w.getLsbD 8 = true ∧ w.toNat % 16 ≠ 2)) →
    (decode w).toOption = none

/-- The words of spec/opcode_table.json, and some illegal ones, read by the decoder (a sanity statement). -/
def Obligations.TableWordsDecode : Prop :=
  decodeTableWord 32 0x00000001 = some .enc ∧ decodeTableWord 32 0x00000002 = some .dec ∧
  decodeTableWord 32 0x00000102 = some .decS ∧ decodeTableWord 32 0x00000003 = some .hotp ∧
  decodeTableWord 32 0x00000004 = some .totp ∧ decodeTableWord 32 0x00000005 = some .verify ∧
  decodeTableWord 32 0x00000006 = some .zero ∧ decodeTableWord 32 0x00000000 = none ∧
  decodeTableWord 32 0x00000101 = none ∧ decodeTableWord 32 0x80000002 = none

/-! ### The command protocol -/

/-- R23: an idle CMD write of any word latches it, clears DONE, LOST, MATCH and ERR, sets BUSY, and changes nothing else
but the free draw of the working values (the model's form, log entry 4); while it runs no bus write changes an input; an illegal word accepted this way
completes with ILLEGAL_CMD. -/
def Obligations.CmdWriteIsAcceptedWhateverItsValue : Prop :=
  (∀ (s : State) (off : Offset) (w : Word), s.engine.phase = .idle → off.toNat / 4 = 0 →
    busWrite off w s =
      { s with
        status := { done := false, lost := false, matched := false, err := .noError }
        engine := { phase := .run, cmdLatch := w, work := some (Config.freeWork s.draws) }
        draws := s.draws + 1 }) ∧
  (∀ (s : State) (off : Offset) (w : Word), s.engine.phase = .run →
    (busWrite off w s).regs = s.regs ∧ (busWrite off w s).mem = s.mem ∧ (busWrite off w s).engine = s.engine) ∧
  (∀ s : State, s.engine.phase = .run → (∀ i, s.engine.cmdLatch ≠ encode i) →
    engineComplete s = .next (errored s .illegalCmd))

/-- R24: every command completes from every state: IDLE, DONE 1, LOST kept, MATCH 1 only for a VERIFY without error,
no working value, and nothing of the host or the platform moves. -/
def Obligations.EveryCommandCompletes : Prop :=
  ∀ (i : Instr) (s : State), ∃ t, exec i s = .next t ∧
    t.engine = engineAfter s ∧ t.status = statusAfter s t.status.err t.status.matched ∧
    (t.status.matched = true → i = .verify ∧ t.status.err = .noError) ∧
    t.inReset = s.inReset ∧ t.program = s.program ∧ t.record = s.record ∧ t.turns = s.turns ∧ t.draws = s.draws

/-- R25: a write while busy, CMD included, changes no register or buffer and sets LOST. -/
def Obligations.WriteWhileBusyIsDroppedAndSetsLost : Prop :=
  ∀ (s : State) (off : Offset) (v : Word), s.engine.phase = .run →
    busWrite off v s = { s with status := { s.status with lost := true } }

/-- R73, R82: a command that raises an error changes STATUS only (and ends its run); so does an illegal word. -/
def Obligations.ErroringCommandWritesOnlyStatus : Prop :=
  (∀ (i : Instr) (s t : State), exec i s = .next t → t.status.err ≠ .noError → t = errored s t.status.err) ∧
  (∀ s : State, illegalCommand s = .next (errored s .illegalCmd))

/-- R77, R78, R79: which command raises which error, and no other; the checks stand in the order of R81. -/
def Obligations.ErrorsAreExactlyTheSpecs : Prop :=
  ∀ s : State,
    (∃ t, exec .enc s = .next t ∧ t.status.err = if 80 < s.regs.binLen.toNat then .length else .noError) ∧
    (∃ t, exec .dec s = .next t ∧ t.status.err = if 128 < s.regs.txtLen.toNat then .length else .noError) ∧
    (∃ t, exec .decS s = .next t ∧ t.status.err =
      if 128 < s.regs.txtLen.toNat then .length
      else if (txtBytes s s.regs.txtLen.toNat).any (fun c => b32val (upcase c) == none && !isws c) then .invalidChar
      else .noError) ∧
    (∃ t, exec .hotp s = .next t ∧ t.status.err =
      if 80 < s.regs.binLen.toNat then .length else if s.regs.binLen = 0 then .emptyKey else .noError) ∧
    (∃ t, exec .totp s = .next t ∧ t.status.err =
      if 128 < s.regs.txtLen.toNat then .length else if secret s = [] then .emptyKey else .noError) ∧
    (∃ t, exec .verify s = .next t ∧ t.status.err = (if 128 < s.regs.txtLen.toNat then .length else .noError) ∧
      (secret s = [] → t.status.matched = false)) ∧
    (∃ t, exec .zero s = .next t ∧ t.status.err = .noError)

/-- R72: an illegal word is accepted and runs, and its completion turn sets ERR = ILLEGAL_CMD, DONE = 1, MATCH = 0 and
changes nothing else. -/
def Obligations.IllegalWordCompletesWithIllegalCmd : Prop :=
  (∀ (s : State) (off : Offset) (w : Word), s.engine.phase = .idle → off.toNat / 4 = 0 → (∀ i, w ≠ encode i) →
    (busWrite off w s).engine.phase = .run ∧ (busWrite off w s).engine.cmdLatch = w) ∧
  (∀ (s : State) (rest : List Turn), s.turns = .complete :: rest → s.engine.phase = .run →
    (∀ i, s.engine.cmdLatch ≠ encode i) → step s = .next (errored { s with turns := rest } .illegalCmd))

/-- A step in whose turn a running command completes is exec of the command in CMDLATCH, on the state with that turn
taken off the schedule; and the word placed by withFetchWord is the one the next step runs (the schedule and withFetchWord
are the model's, log entries 1, 2 and 6). -/
def Obligations.StepRunsTheLatchedCommand : Prop :=
  (∀ (s : State) (i : Instr), nextTurn s = .complete → s.engine.phase = .run → decode s.engine.cmdLatch = .ok i →
    step s = exec i { s with turns := s.turns.tail }) ∧
  (∀ (s : State) (i : Instr), step (s.withFetchWord 32 (encode i).toNat) =
    exec i { accept (encode i) s with turns := s.turns, inReset := false })

/-- R15, R32: a cycle that does not complete the command moves its working values only (a free draw, the model's form,
log entry 4); the turns of an idle engine change nothing. -/
def Obligations.CyclesMoveOnlyWorkingValues : Prop :=
  (∀ (s : State) (rest : List Turn), s.turns = .cycle :: rest → s.engine.phase = .run →
    step s = .next { s with turns := rest, engine := { s.engine with work := some (Config.freeWork s.draws) },
                            draws := s.draws + 1 }) ∧
  (∀ (s : State) (rest : List Turn), s.turns = .cycle :: rest ∨ s.turns = .complete :: rest →
    s.engine.phase = .idle → step s = .next { s with turns := rest })

/-- R32: "every command starts from the registers and buffers alone": no command's outcome depends on a working value,
and none survives it. -/
def Obligations.NoCommandReadsAWorkingValue : Prop :=
  ∀ (i : Instr) (s : State) (w : Option Work),
    exec i { s with engine := { s.engine with work := w } } = exec i s ∧
    ∃ t, exec i s = .next t ∧ t.engine.work = none

/-- R55, R13: two states that hold the same operands of a command give the same error code, the same MATCH and, where it
raises no error, the same outputs, whatever else they hold. -/
def Obligations.CommandsReadOnlyTheirOperands : Prop :=
  ∀ (i : Instr) (s s' : State), Memory.wf s.mem = true → Memory.wf s'.mem = true → sameOperands i s s' →
    ∃ t t', exec i s = .next t ∧ exec i s' = .next t' ∧ t.status.err = t'.status.err ∧
      t.status.matched = t'.status.matched ∧ (t.status.err = .noError → sameOutputs i t t')

/-- R83: STATUS keeps its value, whatever the host reads or writes, until the next accept (or a reset). -/
def Obligations.StatusHoldsUntilTheNextAccept : Prop :=
  ∀ s t : State, step s = .next t → s.engine.phase = .idle → t.engine.phase = .idle → ¬ resetTurn s →
    t.status = s.status

/-- R95: LOST once set stays set until an accept or a reset, so LOST = 0 after a command says that no write was dropped
during it. -/
def Obligations.OnlyAcceptOrResetClearsLost : Prop :=
  ∀ s t : State, step s = .next t → s.status.lost = true → t.status.lost = false →
    resetTurn s ∨ (s.engine.phase = .idle ∧ t.engine.phase = .run)

/-- R98: the completion has no bound but the schedule's: from every state in which a command runs and no reset is
scheduled, the engine is idle again after at most one more step than turns are scheduled (that a command completes once
the schedule is used up is the model's form of weak fairness, log entry 2). -/
def Obligations.EveryAcceptedCommandCompletesInTheEnd : Prop :=
  ∀ s : State, s.engine.phase = .run → s.inReset = false → Turn.assertReset ∉ s.turns →
    ∃ k, k ≤ s.turns.length + 1 ∧ ∃ t : State, Host.Core.run core k s = .next t ∧
      t.engine.phase = .idle ∧ t.status.done = true

/-! ### The bus -/

/-- R36: what an idle read returns at every named register, and that it changes nothing. -/
def Obligations.IdleReadsFollowTheRegisterMap : Prop :=
  ∀ s : State, s.engine.phase = .idle →
    busRead 0x000 s = (0, s) ∧ busRead 0x004 s = (statusWord s, s) ∧
    busRead 0x008 s = (s.regs.binLen.setWidth 32, s) ∧ busRead 0x00C s = (s.regs.txtLen.setWidth 32, s) ∧
    busRead 0x010 s = (s.regs.cntLo, s) ∧ busRead 0x014 s = (s.regs.cntHi, s) ∧
    busRead 0x018 s = (s.regs.timeLo, s) ∧ busRead 0x01C s = (s.regs.timeHi, s) ∧
    busRead 0x020 s = (s.regs.candLo, s) ∧ busRead 0x024 s = (s.regs.candHi, s) ∧
    busRead 0x028 s = (s.regs.candLen.setWidth 32, s) ∧
    busRead 0x030 s = (s.results.binCode, s) ∧ busRead 0x034 s = (s.results.code, s) ∧
    busRead 0x038 s = (s.results.codeAscLo, s) ∧ busRead 0x03C s = (s.results.codeAscHi, s) ∧
    (∀ k, k < 5 → busRead (BitVec.ofNat 12 (0x040 + 4 * k)) s = (Memory.readWord s.mem (0x040 + 4 * k), s)) ∧
    (∀ k, k < 32 → busRead (BitVec.ofNat 12 (0x100 + 4 * k)) s = (Memory.readWord s.mem (0x100 + 4 * k), s)) ∧
    (∀ k, k < 20 → busRead (BitVec.ofNat 12 (0x200 + 4 * k)) s = (Memory.readWord s.mem (0x200 + 4 * k), s))

/-- R40: while busy STATUS reads exactly; every other offset reads as a free draw, a fresh one each time (the counter
of draws is the model's, log entry 3). -/
def Obligations.BusyReadsAreFreeButStatus : Prop :=
  ∀ (s : State) (off : Offset), s.engine.phase = .run →
    (off.toNat / 4 = 1 → busRead off s = (statusWord s, s)) ∧
    (off.toNat / 4 ≠ 1 → busRead off s = (Config.freeWord s.draws, { s with draws := s.draws + 1 }))

/-- R39: reserved offsets read 0 and ignore writes. -/
def Obligations.ReservedOffsetsReadZeroAndIgnoreWrites : Prop :=
  ∀ (s : State) (off : Offset) (v : Word), s.engine.phase = .idle →
    (0x02C ≤ off.toNat ∧ off.toNat ≤ 0x02F ∨ 0x054 ≤ off.toNat ∧ off.toNat ≤ 0x0FF ∨
      0x180 ≤ off.toNat ∧ off.toNat ≤ 0x1FF ∨ 0x250 ≤ off.toNat) →
    busRead off s = (0, s) ∧ busWrite off v s = s

/-- R33, R37: writes to STATUS and to the result registers, DIGEST among them, have no effect. -/
def Obligations.ReadOnlyRegistersIgnoreWrites : Prop :=
  ∀ (s : State) (off : Offset) (v : Word), s.engine.phase = .idle →
    (off.toNat / 4 = 1 ∨ 12 ≤ off.toNat / 4 ∧ off.toNat / 4 ≤ 20) → busWrite off v s = s

/-- R38: the block decodes offset bits `[11:2]` only, and answers the 4096 addresses from BASE, 4 KiB aligned, on. -/
def Obligations.OffsetBitsOneAndZeroAreIgnored : Prop :=
  (∀ (s : State) (off : Offset) (v : Word),
    busRead off s = busRead (off &&& 0xFFC) s ∧ busWrite off v s = busWrite (off &&& 0xFFC) v s) ∧
  Config.base % 4096 = 0 ∧
  (∀ off : Offset, windowOffset (Config.base + off.toNat) = some off) ∧
  (∀ addr : Nat, addr < Config.base ∨ Config.base + 0xFFF < addr → windowOffset addr = none)

/-- R46: an idle read returns the latest write to its location (low 8 bits for a length, R19) and no write but a
command changes what another location reads, STATUS included; a write to a RO register or a reserved offset changes no
read. -/
def Obligations.ReadReturnsTheLatestWrite : Prop :=
  ∀ (s : State) (off off' : Offset) (v : Word), s.engine.phase = .idle → Memory.wf s.mem = true →
    off.toNat / 4 ≠ 0 →
    (busRead off' (busWrite off v s)).1 =
      if off'.toNat / 4 = off.toNat / 4 then
        (if off.toNat / 4 = 2 ∨ off.toNat / 4 = 3 ∨ off.toNat / 4 = 10 then v &&& 0xFF
         else if (4 ≤ off.toNat / 4 ∧ off.toNat / 4 ≤ 9) ∨ (64 ≤ off.toNat / 4 ∧ off.toNat / 4 ≤ 95) ∨
             (128 ≤ off.toNat / 4 ∧ off.toNat / 4 ≤ 147) then v
         else (busRead off' s).1)
      else (busRead off' s).1

/-- R41: a write to TXT or BIN word `k` sets bytes `4k+i` to the word's lanes, and nothing else. -/
def Obligations.WindowWritesSetTheFourLanes : Prop :=
  (∀ (s : State) (k : Nat) (v : Word), s.engine.phase = .idle → Memory.wf s.mem = true → k < 32 →
    ∃ m, busWrite (BitVec.ofNat 12 (0x100 + 4 * k)) v s = { s with mem := m } ∧
      (∀ i, i < 4 → Memory.read m (0x100 + 4 * k + i) = v.extractLsb' (8 * i) 8) ∧
      (∀ a, a < 0x100 + 4 * k ∨ 0x100 + 4 * k + 4 ≤ a → Memory.read m a = Memory.read s.mem a)) ∧
  (∀ (s : State) (k : Nat) (v : Word), s.engine.phase = .idle → Memory.wf s.mem = true → k < 20 →
    ∃ m, busWrite (BitVec.ofNat 12 (0x200 + 4 * k)) v s = { s with mem := m } ∧
      (∀ i, i < 4 → Memory.read m (0x200 + 4 * k + i) = v.extractLsb' (8 * i) 8) ∧
      (∀ a, a < 0x200 + 4 * k ∨ 0x200 + 4 * k + 4 ≤ a → Memory.read m a = Memory.read s.mem a))

/-- R18: BUSY, DONE, LOST and MATCH are bits 0 to 3 of STATUS, ERR with the codes of R75 is bits `[7:4]`, every other bit
reads 0. -/
def Obligations.StatusFieldsStandWhereTheSpecPutsThem : Prop :=
  ∀ s : State,
    (statusWord s).getLsbD 0 = decide (s.engine.phase = .run) ∧ (statusWord s).getLsbD 1 = s.status.done ∧
    (statusWord s).getLsbD 2 = s.status.lost ∧ (statusWord s).getLsbD 3 = s.status.matched ∧
    (statusWord s).toNat / 16 =
      (match s.status.err with
       | .noError => 0
       | .illegalCmd => 1
       | .length => 2
       | .invalidChar => 3
       | .emptyKey => 4)

/-! ### The host -/

/-- R54: WAIT reads STATUS again while BUSY = 1, recording nothing, and records the first STATUS with BUSY = 0. -/
def Obligations.WaitRecordsTheFirstIdleStatus : Prop :=
  ∀ (s : State) (rest : List HostOp) (ts : List Turn), s.program = .wait :: rest → s.turns = .host :: ts →
    s.inReset = false →
    (s.engine.phase = .run → step s = .next { s with turns := ts }) ∧
    (s.engine.phase = .idle →
      step s = .next { s with turns := ts, program := rest, record := s.record ++ [statusWord s] } ∧
      (statusWord s).getLsbD 0 = false)

/-- R54: LDTXT and LDBIN, run to their end on an idle block, leave the bytes in the buffer and their count in its
length register (that the host moves at every step of an empty schedule is the model's choice, log entry 2). -/
def Obligations.LoadLinesPlaceTheirBytes : Prop :=
  ∀ (s : State) (bs : List Byte), s.engine.phase = .idle → s.inReset = false → Memory.wf s.mem = true → s.turns = [] →
    (bs.length ≤ 128 → s.program = expandLine (.ldTxt bs) →
      ∃ t : State, Host.Core.run core s.program.length s = .next t ∧ t.program = [] ∧ t.record = s.record ∧
        t.regs = { s.regs with txtLen := BitVec.ofNat 8 bs.length } ∧ txtBytes t bs.length = bs) ∧
    (bs.length ≤ 80 → s.program = expandLine (.ldBin bs) →
      ∃ t : State, Host.Core.run core s.program.length s = .next t ∧ t.program = [] ∧ t.record = s.record ∧
        t.regs = { s.regs with binLen := BitVec.ofNat 8 bs.length } ∧ binBytes t bs.length = bs)

/-! ### Base32 -/

/-- R56: the accumulator loop is the bit stream of the prose: 5 bits at a time, most significant first, a last short
group filled with zero bits. -/
def Obligations.EncodeIsTheBitStream : Prop :=
  ∀ b : List Byte, base32Encode b = (groups5 (byteStream b)).map b32chr

/-- R56's derived properties: the length is `ceil(8n/5)`, every character is of the alphabet, none is `=`. -/
def Obligations.EncodeGivesAlphabetCharacters : Prop :=
  ∀ b : List Byte, (base32Encode b).length = (8 * b.length + 4) / 5 ∧
    ∀ c ∈ base32Encode b, (0x41 ≤ c.toNat ∧ c.toNat ≤ 0x5A) ∨ (0x32 ≤ c.toNat ∧ c.toNat ≤ 0x37)

/-- R58: the lenient decode is the bit stream of the text's alphabet characters, 8 bits a byte, the rest discarded; the
strict decode is the same where every other character is whitespace and INVALID elsewhere. -/
def Obligations.DecodeIsTheBitStream : Prop :=
  ∀ t : List Byte,
    base32Decode t false = some (groups8 ((alphabetValues t).flatMap bitsMsb)) ∧
    base32Decode t true = if t.any isBadChar then none else some (groups8 ((alphabetValues t).flatMap bitsMsb))

/-- R58's derived property: `v` alphabet characters give `floor(5v/8)` bytes. -/
def Obligations.DecodeLengthIsFiveEighths : Prop :=
  ∀ (t r : List Byte) (strict : Bool), base32Decode t strict = some r →
    r.length = 5 * (alphabetValues t).length / 8

/-- R60, on byte sequences: decoding an encoding gives it back, in both modes. -/
def Obligations.DecodeUndoesEncode : Prop :=
  ∀ (b : List Byte) (strict : Bool), base32Decode (base32Encode b) strict = some b

/-- R60, on the machine: ENC followed by DEC, or by DEC.S, restores BIN and BIN_LEN. -/
def Obligations.EncThenDecRestoresBin : Prop :=
  ∀ s : State, Memory.wf s.mem = true → s.regs.binLen.toNat ≤ 80 →
    ∃ t, exec .enc s = .next t ∧
      (∃ u, exec .dec t = .next u ∧ u.status.err = .noError ∧ u.regs.binLen = s.regs.binLen ∧
        binBytes u 80 = binBytes s 80) ∧
      (∃ u, exec .decS t = .next u ∧ u.status.err = .noError ∧ u.regs.binLen = s.regs.binLen ∧
        binBytes u 80 = binBytes s 80)

/-- R57: ENC: with BIN_LEN above 80 it raises LENGTH and writes STATUS only; otherwise it completes without error and
writes the encoding of BIN, `ceil(8n/5)` characters, to TXT and its length to TXT_LEN, and nothing else. -/
def Obligations.EncWritesTheEncodingOfBin : Prop :=
  ∀ s : State,
    (80 < s.regs.binLen.toNat → exec .enc s = .next (errored s .length)) ∧
    (s.regs.binLen.toNat ≤ 80 → Memory.wf s.mem = true →
      ∃ t, exec .enc s = .next t ∧ storedAt 0x100 (base32Encode (binBytes s s.regs.binLen.toNat)) s t ∧
        (base32Encode (binBytes s s.regs.binLen.toNat)).length = (8 * s.regs.binLen.toNat + 4) / 5 ∧
        t = { s with
          mem := t.mem
          regs := { s.regs with
            txtLen := BitVec.ofNat 8 (base32Encode (binBytes s s.regs.binLen.toNat)).length }
          status := statusAfter s .noError false
          engine := engineAfter s })

/-- R59: DEC (lenient) and DEC.S (strict): with TXT_LEN above 128 they raise LENGTH; where the decode is INVALID, which
only DEC.S meets, INVALID_CHAR; both write STATUS only. Otherwise they complete without error and write the decoding of
TXT, at most 80 bytes, to BIN and its length to BIN_LEN, and nothing else. -/
def Obligations.DecWritesTheDecodingOfTxt : Prop :=
  ∀ (s : State) (i : Instr) (strict : Bool), (i = .dec ∧ strict = false ∨ i = .decS ∧ strict = true) →
    (128 < s.regs.txtLen.toNat → exec i s = .next (errored s .length)) ∧
    (s.regs.txtLen.toNat ≤ 128 → base32Decode (txtBytes s s.regs.txtLen.toNat) strict = none →
      i = .decS ∧ exec i s = .next (errored s .invalidChar)) ∧
    (∀ r, s.regs.txtLen.toNat ≤ 128 → Memory.wf s.mem = true →
      base32Decode (txtBytes s s.regs.txtLen.toNat) strict = some r →
      ∃ t, exec i s = .next t ∧ r.length ≤ 80 ∧ storedAt 0x200 r s t ∧
        t = { s with
          mem := t.mem
          regs := { s.regs with binLen := BitVec.ofNat 8 r.length }
          status := statusAfter s .noError false
          engine := engineAfter s })

/-! ### HMAC-SHA1 and HOTP -/

/-- R61: the padding: `k` is the least number with `(L + 1 + k) mod 64 = 56`, and the padded message is whole blocks. -/
def Obligations.PaddingFillsWholeBlocks : Prop :=
  ∀ m : List Byte,
    (m.length + 1 + sha1PadZeros m.length) % 64 = 56 ∧
    (∀ k, (m.length + 1 + k) % 64 = 56 → sha1PadZeros m.length ≤ k) ∧
    (sha1Pad m).length % 64 = 0

/-- R62: the block key has 64 bytes; a key of at most 64 bytes is padded with zeros to it; a longer one gives the MAC of
its own SHA-1 digest as the key. -/
def Obligations.HmacKeyIsOneBlock : Prop :=
  (∀ k : List Byte, (hmacKey k).length = 64) ∧
  (∀ k : List Byte, k.length ≤ 64 → ∀ i, i < 64 → (hmacKey k).getD i 0 = k.getD i 0) ∧
  (∀ k m : List Byte, 64 < k.length → hmacSha1 k m = hmacSha1 (sha1 k) m)

/-- R63: the laws of HOTPCALC: a 31-bit binCode read from inside the digest, a code below 10^6 that is its remainder,
and the code's six decimal digits. -/
def Obligations.HotpcalcGivesSixDigits : Prop :=
  ∀ (k : List Byte) (c : DWord),
    let r := hotpCalc k c
    r.digest = hmacSha1 k (be64bytes c) ∧ r.digest.length = 20 ∧
    (r.digest.getD 19 0).toNat % 16 + 3 ≤ 18 ∧
    r.binCode.toNat = (be32 r.digest ((r.digest.getD 19 0).toNat % 16)).toNat % 2 ^ 31 ∧
    r.code = r.binCode.toNat % 1000000 ∧
    r.asc.length = 6 ∧ r.asc.all isdigit = true ∧
    r.asc.foldl (fun n c => 10 * n + (c.toNat - 0x30)) 0 = r.code

/-- R64: HOTP: with BIN_LEN above 80 it raises LENGTH, with BIN_LEN 0 EMPTY_KEY, and writes STATUS only; otherwise it
completes without error and writes HOTPCALC of key BIN and counter CNT to DIGEST, BINCODE, CODE, CODE_ASC_LO and
CODE_ASC_HI, and nothing else. -/
def Obligations.HotpWritesTheCodeOfBinAndCnt : Prop :=
  ∀ s : State,
    (80 < s.regs.binLen.toNat → exec .hotp s = .next (errored s .length)) ∧
    (s.regs.binLen.toNat = 0 → exec .hotp s = .next (errored s .emptyKey)) ∧
    (1 ≤ s.regs.binLen.toNat → s.regs.binLen.toNat ≤ 80 → Memory.wf s.mem = true →
      let r := hotpCalc (binBytes s s.regs.binLen.toNat) (s.regs.cntHi ++ s.regs.cntLo)
      ∃ t, exec .hotp s = .next t ∧ storedAt 0x040 r.digest s t ∧ r.digest.length = 20 ∧
        t = { s with
          mem := t.mem
          results :=
            { binCode := r.binCode
              code := BitVec.ofNat 32 r.code
              codeAscLo := r.asc.getD 3 0 ++ r.asc.getD 2 0 ++ r.asc.getD 1 0 ++ r.asc.getD 0 0
              codeAscHi := 0#16 ++ r.asc.getD 5 0 ++ r.asc.getD 4 0 }
          status := statusAfter s .noError false
          engine := engineAfter s })

/-- R26, R27, R28: what the result registers hold after a HOTP or TOTP without error: BINCODE below 2^31, CODE its
remainder modulo 10^6, and CODE's six ASCII digits, character 0 in the low lane. -/
def Obligations.ResultRegistersHoldOneCode : Prop :=
  ∀ (i : Instr) (s t : State), (i = .hotp ∨ i = .totp) → exec i s = .next t → t.status.err = .noError →
    t.results.binCode.getLsbD 31 = false ∧
    t.results.code.toNat = t.results.binCode.toNat % 1000000 ∧
    (∀ j, j < 4 → (t.results.codeAscLo.extractLsb' (8 * j) 8).toNat = 0x30 + t.results.code.toNat / 10 ^ (5 - j) % 10) ∧
    (∀ j, 4 ≤ j → j < 6 →
      (t.results.codeAscHi.extractLsb' (8 * (j - 4)) 8).toNat = 0x30 + t.results.code.toNat / 10 ^ (5 - j) % 10) ∧
    t.results.codeAscHi.extractLsb' 16 16 = 0

/-! ### TOTP and VERIFY -/

/-- R65: the counter is exact division, and a counter and its successor fit in 64 bits. -/
def Obligations.TcountIsExactDivision : Prop :=
  ∀ t : DWord, tcount t * 30 ≤ t.toNat ∧ t.toNat < tcount t * 30 + 30 ∧ tcount t ≤ 614891469123651720 ∧
    tcount t + 1 ≤ 2 ^ 64 - 1

/-- R66: TOTP: with TXT_LEN above 128 it raises LENGTH, with a secret that decodes to nothing EMPTY_KEY, and writes
STATUS only; otherwise it completes without error and writes the decoded secret, at most 80 bytes, to BIN and its length
to BIN_LEN, and HOTPCALC of the secret at `TIME div 30` to DIGEST and the result registers, and nothing else. -/
def Obligations.TotpWritesTheCodeOfTxtAndTime : Prop :=
  ∀ s : State,
    (128 < s.regs.txtLen.toNat → exec .totp s = .next (errored s .length)) ∧
    (s.regs.txtLen.toNat ≤ 128 → secret s = [] → exec .totp s = .next (errored s .emptyKey)) ∧
    (s.regs.txtLen.toNat ≤ 128 → secret s ≠ [] → Memory.wf s.mem = true →
      let r := hotpCalc (secret s) (BitVec.ofNat 64 ((s.regs.timeHi ++ s.regs.timeLo).toNat / 30))
      ∃ t, exec .totp s = .next t ∧ (secret s).length ≤ 80 ∧ r.digest.length = 20 ∧
        binBytes t (secret s).length = secret s ∧ digest t = r.digest ∧
        (∀ a, (a < 0x040 ∨ 0x054 ≤ a) → (a < 0x200 ∨ 0x200 + (secret s).length ≤ a) →
          Memory.read t.mem a = Memory.read s.mem a) ∧
        t = { s with
          mem := t.mem
          regs := { s.regs with binLen := BitVec.ofNat 8 (secret s).length }
          results :=
            { binCode := r.binCode
              code := BitVec.ofNat 32 r.code
              codeAscLo := r.asc.getD 3 0 ++ r.asc.getD 2 0 ++ r.asc.getD 1 0 ++ r.asc.getD 0 0
              codeAscHi := 0#16 ++ r.asc.getD 5 0 ++ r.asc.getD 4 0 }
          status := statusAfter s .noError false
          engine := engineAfter s })

/-- R66's derived corner case: TOTP at time T gives the results and the DIGEST of DEC followed by HOTP with
`CNT = T div 30`. -/
def Obligations.TotpIsDecThenHotp : Prop :=
  ∀ s : State, Memory.wf s.mem = true → s.regs.txtLen.toNat ≤ 128 → secret s ≠ [] →
    ∃ t u v, exec .totp s = .next t ∧ exec .dec s = .next u ∧
      exec .hotp { u with regs := { u.regs with
        cntHi := (BitVec.ofNat 64 ((s.regs.timeHi ++ s.regs.timeLo).toNat / 30)).extractLsb' 32 32
        cntLo := (BitVec.ofNat 64 ((s.regs.timeHi ++ s.regs.timeLo).toNat / 30)).extractLsb' 0 32 } } = .next v ∧
      v.status.err = .noError ∧ v.results = t.results ∧ digest v = digest t

/-- R67: the format gate is passed by exactly six ASCII digits; a candidate that fails it completes with MATCH = 0 and
no error, and nothing but STATUS is written. -/
def Obligations.FormatGateIsSixDigits : Prop :=
  (∀ s : State, fmtOk s = true ↔
    s.regs.candLen = 6 ∧ ∀ i, i < 6 → 0x30 ≤ (candByte s i).toNat ∧ (candByte s i).toNat ≤ 0x39) ∧
  (∀ s : State, s.regs.txtLen.toNat ≤ 128 → fmtOk s = false → exec .verify s = .next (errored s .noError))

/-- R68: the window is true exactly when some `delta` in {-1, 0, +1} with `c + delta >= 0` gives the candidate. -/
def Obligations.WindowIsOnePeriodEitherSide : Prop :=
  ∀ (k : List Byte) (c : Nat) (cand : List Byte),
    windowMatch k c cand = true ↔
      ∃ delta : Int, -1 ≤ delta ∧ delta ≤ 1 ∧ 0 ≤ (c : Int) + delta ∧
        (hotpCalc k (BitVec.ofNat 64 ((c : Int) + delta).toNat)).asc = cand

/-- R69: VERIFY: with TXT_LEN above 128 it raises LENGTH; a candidate that fails the format gate gives MATCH = 0 without
error; both write STATUS only. Otherwise the decoded secret, at most 80 bytes, goes to BIN and its length to BIN_LEN, and
MATCH is set to the window's verdict, 0 for a secret that decodes to nothing. No path writes a result register or
DIGEST. -/
def Obligations.VerifySetsMatch : Prop :=
  ∀ s : State,
    (128 < s.regs.txtLen.toNat → exec .verify s = .next (errored s .length)) ∧
    (s.regs.txtLen.toNat ≤ 128 → fmtOk s = false → exec .verify s = .next (errored s .noError)) ∧
    (s.regs.txtLen.toNat ≤ 128 → fmtOk s = true → Memory.wf s.mem = true →
      ∃ t, exec .verify s = .next t ∧ (secret s).length ≤ 80 ∧ storedAt 0x200 (secret s) s t ∧
        t = { s with
          mem := t.mem
          regs := { s.regs with binLen := BitVec.ofNat 8 (secret s).length }
          status := statusAfter s .noError (!(secret s).isEmpty &&
            windowMatch (secret s) ((s.regs.timeHi ++ s.regs.timeLo).toNat / 30) ((List.range 6).map (candByte s)))
          engine := engineAfter s })

/-- R70: a code that TOTP computes at time T is accepted by VERIFY at every time T' whose counter differs by at most 1,
in particular for times at most 30 seconds apart. -/
def Obligations.VerifyAcceptsTotpWithinOnePeriod : Prop :=
  ∀ (s : State) (t' : DWord), s.regs.txtLen.toNat ≤ 128 → secret s ≠ [] →
    ((s.regs.timeHi ++ s.regs.timeLo).toNat / 30 ≤ t'.toNat / 30 + 1 ∧
      t'.toNat / 30 ≤ (s.regs.timeHi ++ s.regs.timeLo).toNat / 30 + 1 ∨
     (s.regs.timeHi ++ s.regs.timeLo).toNat ≤ t'.toNat + 30 ∧
      t'.toNat ≤ (s.regs.timeHi ++ s.regs.timeLo).toNat + 30) →
    ∃ t u, exec .totp s = .next t ∧
      exec .verify { t with regs := { t.regs with
        timeHi := t'.extractLsb' 32 32
        timeLo := t'.extractLsb' 0 32
        candLo := t.results.codeAscLo
        candHi := t.results.codeAscHi
        candLen := 6 } } = .next u ∧
      u.status.matched = true ∧ u.status.err = .noError

/-! ### ZERO, reset, and the whole machine -/

/-- R71: ZERO returns every register and buffer to its reset value and completes without error. -/
def Obligations.ZeroErasesEverything : Prop :=
  ∀ s : State, ∃ t, exec .zero s = .next t ∧
    t = { s with regs := Regs.reset, results := Results.reset, mem := [], status := statusAfter s .noError false,
                 engine := engineAfter s } ∧
    (∀ off : Offset, off.toNat / 4 ≠ 1 → busRead off t = (0, t)) ∧
    statusWord t = if s.status.lost then 0x00000006 else 0x00000002

/-- R34: after reset every register and every buffer word reads 0, the phase is IDLE and CMDLATCH is 0. -/
def Obligations.ResetReadsZeroEverywhere : Prop :=
  (∀ off : Offset, busRead off State.reset = (0, State.reset)) ∧
  (∀ a : Nat, Memory.read State.reset.mem a = 0) ∧
  State.reset.engine.phase = .idle ∧ State.reset.engine.cmdLatch = 0

/-- R91, R92: a reset abandons a running command and leaves the block at its reset values, and whatever the block holds
when an asserted reset is released, it then has its reset values; until it is released a host access to the block is a
fault (the spec leaves the effect of such an access open; that it is a fault is the model's choice, log entry 8). -/
def Obligations.ResetAbandonsTheCommand : Prop :=
  (∀ (s : State) (rest : List Turn), s.turns = .assertReset :: .releaseReset :: rest →
    Host.Core.run core 2 s = .next
      { s with regs := Regs.reset, results := Results.reset, mem := [], status := Status.reset, engine := Engine.reset,
               inReset := false, turns := rest }) ∧
  (∀ (s : State) (rest : List Turn), s.turns = .releaseReset :: rest → s.inReset = true →
    step s = .next
      { s with regs := Regs.reset, results := Results.reset, mem := [], status := Status.reset, engine := Engine.reset,
               inReset := false, turns := rest }) ∧
  (∀ (s : State) (ts : List Turn) (op : HostOp) (rest : List HostOp) (off : Offset),
    s.turns = .host :: ts → s.program = op :: rest → selects op = some off → s.inReset = true →
    step s = .fault .accessInReset)

/-- R35, R20, R21: CNT, TIME and the candidate are written by nothing but the host, ZERO and reset. -/
def Obligations.OnlyHostZeroAndResetWriteTheInputs : Prop :=
  ∀ s t : State, step s = .next t →
    ¬ (t.regs.cntLo = s.regs.cntLo ∧ t.regs.cntHi = s.regs.cntHi ∧ t.regs.timeLo = s.regs.timeLo ∧
       t.regs.timeHi = s.regs.timeHi ∧ t.regs.candLo = s.regs.candLo ∧ t.regs.candHi = s.regs.candHi ∧
       t.regs.candLen = s.regs.candLen) →
    nextTurn s = .host ∨ resetTurn s ∨ completes s .zero

/-- R26, R27, R29: the result registers and DIGEST are written by nothing but HOTP, TOTP, ZERO and reset. -/
def Obligations.OnlyHotpTotpZeroAndResetWriteResults : Prop :=
  ∀ s t : State, step s = .next t → ¬ (t.results = s.results ∧ digest t = digest s) →
    resetTurn s ∨ completes s .hotp ∨ completes s .totp ∨ completes s .zero

/-- R30, R31: TXT is written by nothing but the host, ENC, ZERO and reset; BIN by nothing but the host, DEC, DEC.S,
TOTP, VERIFY, ZERO and reset. -/
def Obligations.OnlyTheNamedCommandsWriteTheBuffers : Prop :=
  ∀ s t : State, step s = .next t →
    (txtBytes t 128 ≠ txtBytes s 128 → nextTurn s = .host ∨ resetTurn s ∨ completes s .enc ∨ completes s .zero) ∧
    (binBytes t 80 ≠ binBytes s 80 → nextTurn s = .host ∨ resetTurn s ∨ completes s .dec ∨ completes s .decS ∨
      completes s .totp ∨ completes s .verify ∨ completes s .zero)

/-- Two memories in canonical form that read alike are the same list: the representation holds nothing else (the
model's own convention, log entry 9). -/
def Obligations.CanonicalMemoryIsDeterminedByItsBytes : Prop :=
  ∀ m m' : Memory, Memory.wf m = true → Memory.wf m' = true → (∀ a, Memory.read m a = Memory.read m' a) → m = m'

/-- The invariant holds after reset. -/
def Obligations.ResetSatisfiesTheInvariant : Prop :=
  Inv State.reset

/-- Every step keeps the invariant: canonical memory inside the windows, legal STATUS (R18), result registers that
belong together (R26 to R29), no working value outside RUN (R32), reset values while reset is asserted
(the model's choice, log entry 7). -/
def Obligations.EveryStepKeepsTheInvariant : Prop :=
  ∀ s t : State, Inv s → step s = .next t → Inv t
end

