-- ==== Sys2Proof/Laws/Base32.lean ====
section
/-! SUPPORT. Base32: the lenient decode always gives a byte sequence, and how long encodings and decodings get. -/

namespace Sys2Proof.Machine

/-! ### DECODE -/

/-- A character the lenient decode drops leaves the rest of the decode alone. -/
theorem decodeFrom_drop {strict : Bool} {acc : BitVec 12} {nbits : Nat} {t : Byte} {ts : List Byte}
    (hv : b32val (upcase t) = none) (hs : (strict && !isws t) = false) :
    decodeFrom strict acc nbits (t :: ts) = decodeFrom strict acc nbits ts := by
  simp [decodeFrom, hv, hs]

/-- A character the strict decode rejects makes the whole decode INVALID. -/
theorem decodeFrom_reject {acc : BitVec 12} {nbits : Nat} {t : Byte} {ts : List Byte}
    (hv : b32val (upcase t) = none) (hs : isws t = false) : decodeFrom true acc nbits (t :: ts) = none := by
  simp [decodeFrom, hv, hs]

/-- An alphabet character that leaves fewer than 8 bits pending. -/
theorem decodeFrom_pend {strict : Bool} {acc : BitVec 12} {nbits : Nat} {t : Byte} {ts : List Byte} {v : BitVec 5}
    (hv : b32val (upcase t) = some v) (hn : nbits + 5 < 8) :
    decodeFrom strict acc nbits (t :: ts) = decodeFrom strict ((acc <<< 5) ||| v.setWidth 12) (nbits + 5) ts := by
  simp [decodeFrom, hv, show ¬ 8 ≤ nbits + 5 by omega]

/-- An alphabet character that completes a byte. -/
theorem decodeFrom_emit {strict : Bool} {acc : BitVec 12} {nbits : Nat} {t : Byte} {ts : List Byte} {v : BitVec 5}
    (hv : b32val (upcase t) = some v) (hn : 8 ≤ nbits + 5) :
    decodeFrom strict acc nbits (t :: ts) =
      (decodeFrom strict ((acc <<< 5) ||| v.setWidth 12) (nbits + 5 - 8) ts).map
        ((((acc <<< 5) ||| v.setWidth 12) >>> (nbits + 5 - 8)).setWidth 8 :: ·) := by
  simp [decodeFrom, hv, hn]

/-- The lenient decode is never INVALID (R58). -/
theorem decodeFrom_lenient (acc : BitVec 12) (nbits : Nat) (t : List Byte) :
    ∃ r, decodeFrom false acc nbits t = some r := by
  induction t generalizing acc nbits with
  | nil => exact ⟨[], rfl⟩
  | cons c ts ih =>
    cases hv : b32val (upcase c) with
    | none => rw [decodeFrom_drop hv (by simp)]; exact ih ..
    | some v =>
      by_cases hn : 8 ≤ nbits + 5
      · obtain ⟨r, hr⟩ := ih ((acc <<< 5) ||| v.setWidth 12) (nbits + 5 - 8)
        exact ⟨_, by rw [decodeFrom_emit hv hn, hr]; rfl⟩
      · rw [decodeFrom_pend hv (by omega)]; exact ih ..

/-- The byte sequence of the lenient decode is its verdict. -/
theorem base32Decode_lenient (t : List Byte) : base32Decode t false = some (decodeLenient t) := by
  obtain ⟨r, hr⟩ := decodeFrom_lenient 0 0 t
  unfold decodeLenient base32Decode
  rw [hr]; rfl

/-- One character adds at most 5 bits (R58). -/
theorem decodeFrom_length_le {strict : Bool} {acc : BitVec 12} {nbits : Nat} {t r : List Byte}
    (h : decodeFrom strict acc nbits t = some r) : 8 * r.length ≤ nbits + 5 * t.length := by
  induction t generalizing acc nbits r with
  | nil => simp only [decodeFrom, Option.some.injEq] at h; subst h; simp
  | cons c ts ih =>
    simp only [List.length_cons]
    cases hv : b32val (upcase c) with
    | none =>
      cases hs : (strict && !isws c) with
      | false => have := ih (decodeFrom_drop hv hs ▸ h); omega
      | true => simp [decodeFrom, hv, hs] at h
    | some v =>
      by_cases hn : 8 ≤ nbits + 5
      · rw [decodeFrom_emit hv hn] at h
        obtain ⟨q, hq, rfl⟩ := Option.map_eq_some_iff.1 h
        have := ih hq
        simp only [List.length_cons]; omega
      · rw [decodeFrom_pend hv (by omega)] at h
        have := ih h; omega

/-- 128 characters decode to at most 80 bytes, so DEC can never overflow BIN (R59). -/
theorem base32Decode_fits {t r : List Byte} {strict : Bool} (h : base32Decode t strict = some r) (ht : t.length ≤ 128) :
    r.length ≤ 80 := by
  have := decodeFrom_length_le h; omega

theorem decodeLenient_fits {t : List Byte} (ht : t.length ≤ 128) : (decodeLenient t).length ≤ 80 :=
  base32Decode_fits (base32Decode_lenient t) ht

/-! ### ENCODE -/

/-- The inner loop of ENCODE, run to its end: from at most 12 pending bits it leaves fewer than 5 and emits one
character for each 5 it takes (R56). -/
theorem emitGroups_spec (acc : BitVec 12) (fuel nbits : Nat) (h : nbits < 5 * (fuel + 1)) :
    (emitGroups acc fuel nbits).2 = nbits % 5 ∧ (emitGroups acc fuel nbits).1.length = nbits / 5 := by
  induction fuel generalizing nbits with
  | zero => simp [emitGroups]; omega
  | succ fuel ih =>
    unfold emitGroups
    split
    · obtain ⟨h1, h2⟩ := ih (nbits - 5) (by omega)
      simp only [h1, List.length_cons, h2]; omega
    · simp; omega

/-- An encoding has at most one character for each 5 bits, and one more (R56). -/
theorem encodeFrom_length_le (acc : BitVec 12) (nbits : Nat) (b : List Byte) (h : nbits < 5) :
    5 * (encodeFrom acc nbits b).length ≤ nbits + 8 * b.length + 4 := by
  induction b generalizing acc nbits with
  | nil => unfold encodeFrom; split <;> simp; omega
  | cons c bs ih =>
    obtain ⟨h1, h2⟩ := emitGroups_spec ((acc <<< 8) ||| c.setWidth 12) (nbits + 8) (nbits + 8) (by omega)
    have := ih ((acc <<< 8) ||| c.setWidth 12) _ (show (nbits + 8) % 5 < 5 by omega)
    simp only [encodeFrom, List.length_append, List.length_cons, h1, h2]
    omega

/-- 80 bytes encode to at most 128 characters, the whole buffer (R57). -/
theorem base32Encode_fits {b : List Byte} (h : b.length ≤ 80) : (base32Encode b).length ≤ 128 := by
  have := encodeFrom_length_le 0 0 b (by omega)
  unfold base32Encode; omega

end Sys2Proof.Machine
end

