-- ==== Sys2Proof/Laws/Memory.lean ====
section
/-! SUPPORT. The byte windows: read after write, every operation keeps the canonical form and stays inside the windows,
and what byte and word sequences read back as. -/

namespace Sys2Proof.Machine

/-! ### One byte -/

theorem read_eq_zero_of_lt {m : Memory} {lo a : Nat} (h : Memory.wfFrom lo m = true) (ha : a < lo) :
    Memory.read m a = 0 := by
  induction m generalizing lo with
  | nil => rfl
  | cons c m ih =>
    obtain ⟨k, b⟩ := c
    simp only [Memory.wfFrom, Bool.and_eq_true, decide_eq_true_eq] at h
    rw [Memory.read, if_neg (by omega), ih h.2 (by omega)]

theorem wfFrom_mono {m : Memory} {lo lo' : Nat} (h : Memory.wfFrom lo' m = true) (hl : lo ≤ lo') :
    Memory.wfFrom lo m = true := by
  cases m with
  | nil => rfl
  | cons c m =>
    simp only [Memory.wfFrom, Bool.and_eq_true, decide_eq_true_eq] at h ⊢
    exact ⟨⟨by omega, h.1.2⟩, h.2⟩

theorem read_write_other (m : Memory) {a a' : Nat} (v : Byte) (h : a' ≠ a) :
    Memory.read (Memory.write m a v) a' = Memory.read m a' := by
  induction m with
  | nil => unfold Memory.write; split <;> simp [Memory.read, h]
  | cons c m ih =>
    obtain ⟨k, b⟩ := c
    unfold Memory.write
    split
    · split <;> simp [Memory.read, h]
    · split
      · subst_vars; split <;> simp [Memory.read, h]
      · simp [Memory.read, ih]

theorem read_write_same {m : Memory} {lo : Nat} (hm : Memory.wfFrom lo m = true) (a : Nat) (v : Byte) :
    Memory.read (Memory.write m a v) a = v := by
  induction m generalizing lo with
  | nil => unfold Memory.write; split <;> simp_all [Memory.read]
  | cons c m ih =>
    obtain ⟨k, b⟩ := c
    simp only [Memory.wfFrom, Bool.and_eq_true, decide_eq_true_eq] at hm
    unfold Memory.write
    split
    · split
      · rw [Memory.read, if_neg (by omega), read_eq_zero_of_lt hm.2 (by omega)]; simp_all
      · simp [Memory.read]
    · split
      · split
        · rw [read_eq_zero_of_lt hm.2 (by omega)]; simp_all
        · simp [Memory.read]
      · rw [Memory.read, if_neg (by omega), ih hm.2]

/-- Read after write, on a canonical memory. -/
theorem read_write {m : Memory} (hm : Memory.wf m = true) (a a' : Nat) (v : Byte) :
    Memory.read (Memory.write m a v) a' = if a' = a then v else Memory.read m a' := by
  split
  · subst_vars; exact read_write_same hm _ v
  · exact read_write_other m v ‹_›

theorem wfFrom_write {m : Memory} {lo a : Nat} (hm : Memory.wfFrom lo m = true) (ha : lo ≤ a) (v : Byte) :
    Memory.wfFrom lo (Memory.write m a v) = true := by
  induction m generalizing lo with
  | nil => unfold Memory.write; split <;> simp_all [Memory.wfFrom]
  | cons c m ih =>
    obtain ⟨k, b⟩ := c
    have hm' := hm
    simp only [Memory.wfFrom, Bool.and_eq_true, decide_eq_true_eq] at hm
    unfold Memory.write
    split
    · split
      · exact hm'
      · simp_all [Memory.wfFrom]
    · split
      · split
        · exact wfFrom_mono hm.2 (by omega)
        · subst_vars; simp_all [Memory.wfFrom]
      · simp only [Memory.wfFrom, Bool.and_eq_true, decide_eq_true_eq]
        exact ⟨hm.1, ih hm.2 (by omega)⟩

/-- A byte store keeps the canonical form. -/
theorem wf_write {m : Memory} (hm : Memory.wf m = true) (a : Nat) (v : Byte) :
    Memory.wf (Memory.write m a v) = true := wfFrom_write hm (Nat.zero_le a) v

/-- A byte store lists nothing new but its own byte. -/
theorem mem_write {m : Memory} {a : Nat} {v : Byte} {c : Host.Cell} (h : c ∈ Memory.write m a v) : c.1 = a ∨ c ∈ m := by
  induction m with
  | nil =>
    unfold Memory.write at h
    split at h <;> simp_all
  | cons d m ih =>
    obtain ⟨k, b⟩ := d
    unfold Memory.write at h
    split at h
    · split at h
      · exact .inr h
      · rcases List.mem_cons.1 h with rfl | h
        · exact .inl rfl
        · exact .inr h
    · split at h
      · split at h
        · exact .inr (List.mem_cons_of_mem _ h)
        · rcases List.mem_cons.1 h with rfl | h
          · exact .inl rfl
          · exact .inr (List.mem_cons_of_mem _ h)
      · rcases List.mem_cons.1 h with rfl | h
        · exact .inr (by simp)
        · exact (ih h).imp id (List.mem_cons_of_mem _)

/-- A byte store at a byte that exists stays inside the windows. -/
theorem mapped_write {m : Memory} (hm : Memory.mapped m = true) {a : Nat} (ha : isWindowByte a = true) (v : Byte) :
    Memory.mapped (Memory.write m a v) = true := by
  unfold Memory.mapped at *
  refine List.all_eq_true.2 (fun c hc => ?_)
  rcases mem_write hc with h | h
  · rw [h]; exact ha
  · exact List.all_eq_true.1 hm c h

/-! ### Byte sequences -/

/-- The empty memory, reset's, is canonical. -/
@[simp] theorem wf_nil : Memory.wf [] = true := rfl

@[simp] theorem mapped_nil : Memory.mapped [] = true := rfl

@[simp] theorem read_nil (a : Nat) : Memory.read [] a = 0 := rfl

@[simp] theorem length_readBytes (m : Memory) (base n : Nat) : (Memory.readBytes m base n).length = n := by
  simp [Memory.readBytes]

/-- A byte-sequence store keeps the canonical form. -/
theorem wf_writeBytes {m : Memory} (hm : Memory.wf m = true) (base : Nat) (bs : List Byte) :
    Memory.wf (Memory.writeBytes m base bs) = true := by
  induction bs generalizing m base with
  | nil => exact hm
  | cons b bs ih => exact ih (wf_write hm base b) (base + 1)

/-- A byte-sequence store changes no byte outside `[base, base + length)`. -/
theorem read_writeBytes_outside (m : Memory) {base a : Nat} (bs : List Byte)
    (h : a < base ∨ base + bs.length ≤ a) :
    Memory.read (Memory.writeBytes m base bs) a = Memory.read m a := by
  induction bs generalizing m base with
  | nil => rfl
  | cons b bs ih =>
    simp only [List.length_cons] at h
    rw [Memory.writeBytes, ih _ (by omega), read_write_other m b (by omega)]

/-- A byte-sequence store puts byte `i` at `base + i`. -/
theorem read_writeBytes_inside {m : Memory} (hm : Memory.wf m = true) (base : Nat) (bs : List Byte) {i : Nat}
    (h : i < bs.length) : Memory.read (Memory.writeBytes m base bs) (base + i) = bs.getD i 0 := by
  induction bs generalizing m base i with
  | nil => simp at h
  | cons b bs ih =>
    rw [Memory.writeBytes]
    cases i with
    | zero => rw [read_writeBytes_outside _ _ (by omega), read_write hm]; simp
    | succ i =>
      have := ih (wf_write hm base b) (base + 1) (i := i) (by simpa using h)
      rw [show base + (i + 1) = base + 1 + i by omega, this]; simp

/-- Stores inside the windows list only bytes that exist. -/
theorem mapped_writeBytes {m : Memory} (hm : Memory.mapped m = true) {base : Nat} {bs : List Byte}
    (h : ∀ i, i < bs.length → isWindowByte (base + i) = true) :
    Memory.mapped (Memory.writeBytes m base bs) = true := by
  induction bs generalizing m base with
  | nil => exact hm
  | cons b bs ih =>
    refine ih (mapped_write hm (by simpa using h 0 (by simp)) b) (fun i hi => ?_)
    have := h (i + 1) (by simpa using hi)
    rwa [show base + (i + 1) = base + 1 + i by omega] at this

/-- Reading back a stored byte sequence gives it. -/
theorem readBytes_writeBytes {m : Memory} (hm : Memory.wf m = true) (base : Nat) (bs : List Byte) :
    Memory.readBytes (Memory.writeBytes m base bs) base bs.length = bs := by
  refine List.ext_getElem (by simp) (fun i h1 h2 => ?_)
  simp only [Memory.readBytes, List.getElem_map, List.getElem_range]
  rw [read_writeBytes_inside hm base bs (by simpa using h2)]
  simp [List.getD_eq_getElem?_getD, h2]

/-- Two memories that agree on a range read alike there. -/
theorem readBytes_congr {m m' : Memory} {base n : Nat}
    (h : ∀ i, i < n → Memory.read m (base + i) = Memory.read m' (base + i)) :
    Memory.readBytes m base n = Memory.readBytes m' base n := by
  unfold Memory.readBytes
  exact List.map_congr_left (fun i hi => h i (by simpa using hi))

/-- A store elsewhere leaves a range alone. -/
theorem readBytes_writeBytes_disjoint (m : Memory) {base n base' : Nat} (bs : List Byte)
    (h : base + n ≤ base' ∨ base' + bs.length ≤ base) :
    Memory.readBytes (Memory.writeBytes m base' bs) base n = Memory.readBytes m base n :=
  readBytes_congr (fun i hi => read_writeBytes_outside m bs (by omega))

/-! ### Words -/

/-- A word store keeps the canonical form. -/
theorem wf_writeWord {m : Memory} (hm : Memory.wf m = true) (a : Nat) (v : Word) :
    Memory.wf (Memory.writeWord m a v) = true := wf_writeBytes hm a _

/-- A word store changes no byte outside its four. -/
theorem read_writeWord_outside (m : Memory) {a a' : Nat} (v : Word) (h : a' < a ∨ a + 4 ≤ a') :
    Memory.read (Memory.writeWord m a v) a' = Memory.read m a' :=
  read_writeBytes_outside m _ (by simpa using h)

/-- A word store puts lane `i` at `a + i`. -/
theorem read_writeWord_inside {m : Memory} (hm : Memory.wf m = true) (a : Nat) (v : Word) {i : Nat} (h : i < 4) :
    Memory.read (Memory.writeWord m a v) (a + i) = lane v i := by
  rw [Memory.writeWord, read_writeBytes_inside hm a _ (by simpa using h)]
  match i, h with
  | 0, _ => rfl
  | 1, _ => rfl
  | 2, _ => rfl
  | 3, _ => rfl

/-- A word store stays inside the windows where its four bytes exist. -/
theorem mapped_writeWord {m : Memory} (hm : Memory.mapped m = true) {a : Nat}
    (h : ∀ i, i < 4 → isWindowByte (a + i) = true) (v : Word) :
    Memory.mapped (Memory.writeWord m a v) = true := mapped_writeBytes hm (by simpa using h)

/-- The four lanes of a word make the word. -/
theorem ofLanes_lanes (v : Word) : ofLanes (lane v 0) (lane v 1) (lane v 2) (lane v 3) = v := by
  unfold ofLanes lane
  ext i hi
  simp only [BitVec.getElem_append, BitVec.getElem_extractLsb']
  split
  · simp [← BitVec.getLsbD_eq_getElem]
  · split
    · rw [← BitVec.getLsbD_eq_getElem]; congr 1; omega
    · split <;> rw [← BitVec.getLsbD_eq_getElem] <;> congr 1 <;> omega

/-- Lane `i` of four bytes is byte `i`. -/
theorem lane_ofLanes (b0 b1 b2 b3 : Byte) :
    lane (ofLanes b0 b1 b2 b3) 0 = b0 ∧ lane (ofLanes b0 b1 b2 b3) 1 = b1 ∧ lane (ofLanes b0 b1 b2 b3) 2 = b2 ∧
      lane (ofLanes b0 b1 b2 b3) 3 = b3 := by
  unfold ofLanes lane
  refine ⟨?_, ?_, ?_, ?_⟩ <;> ext i hi <;>
    simp only [BitVec.getElem_extractLsb', BitVec.getLsbD_append, Nat.mul_zero, Nat.mul_one, Nat.reduceMul]
  · simp [hi, BitVec.getLsbD_eq_getElem]
  · rw [if_neg (by omega), if_pos (by omega), ← BitVec.getLsbD_eq_getElem]; congr 1; omega
  · rw [if_neg (by omega), if_neg (by omega), if_pos (by omega), ← BitVec.getLsbD_eq_getElem]; congr 1; omega
  · rw [if_neg (by omega), if_neg (by omega), if_neg (by omega), ← BitVec.getLsbD_eq_getElem]; congr 1; omega

/-- A word reads back as written. -/
theorem readWord_writeWord_same {m : Memory} (hm : Memory.wf m = true) (a : Nat) (v : Word) :
    Memory.readWord (Memory.writeWord m a v) a = v := by
  have h := fun i (hi : i < 4) => read_writeWord_inside hm a v hi
  rw [Memory.readWord, show Memory.read (Memory.writeWord m a v) a = lane v 0 from h 0 (by omega), h 1 (by omega),
    h 2 (by omega), h 3 (by omega), ofLanes_lanes]

/-- A word store elsewhere leaves a word alone. -/
theorem readWord_writeWord_other (m : Memory) {a a' : Nat} (v : Word) (h : a' + 4 ≤ a ∨ a + 4 ≤ a') :
    Memory.readWord (Memory.writeWord m a v) a' = Memory.readWord m a' := by
  simp only [Memory.readWord]
  rw [read_writeWord_outside m v (by omega), read_writeWord_outside m v (by omega),
    read_writeWord_outside m v (by omega), read_writeWord_outside m v (by omega)]

end Sys2Proof.Machine
end

