-- ==== Sys2Proof/Laws/State.lean ====
section
/-! SUPPORT. One lemma per field of State per named update, so that no proof unfolds a record update. -/

namespace Sys2Proof.Machine

/-! ### accept -/

@[simp] theorem accept_regs (w : Word) (s : State) : (accept w s).regs = s.regs := rfl

@[simp] theorem accept_results (w : Word) (s : State) : (accept w s).results = s.results := rfl

@[simp] theorem accept_mem (w : Word) (s : State) : (accept w s).mem = s.mem := rfl

@[simp] theorem accept_status (w : Word) (s : State) :
    (accept w s).status = { done := false, lost := false, matched := false, err := .noError } := rfl

@[simp] theorem accept_engine (w : Word) (s : State) :
    (accept w s).engine = { phase := .run, cmdLatch := w, work := some (Config.freeWork s.draws) } := rfl

@[simp] theorem accept_inReset (w : Word) (s : State) : (accept w s).inReset = s.inReset := rfl

@[simp] theorem accept_program (w : Word) (s : State) : (accept w s).program = s.program := rfl

@[simp] theorem accept_record (w : Word) (s : State) : (accept w s).record = s.record := rfl

@[simp] theorem accept_turns (w : Word) (s : State) : (accept w s).turns = s.turns := rfl

@[simp] theorem accept_draws (w : Word) (s : State) : (accept w s).draws = s.draws + 1 := rfl

/-! ### complete -/

@[simp] theorem complete_regs (e : ErrCode) (m : Bool) (s : State) : (complete e m s).regs = s.regs := rfl

@[simp] theorem complete_results (e : ErrCode) (m : Bool) (s : State) : (complete e m s).results = s.results := rfl

@[simp] theorem complete_mem (e : ErrCode) (m : Bool) (s : State) : (complete e m s).mem = s.mem := rfl

@[simp] theorem complete_status (e : ErrCode) (m : Bool) (s : State) :
    (complete e m s).status = { done := true, lost := s.status.lost, matched := m, err := e } := rfl

@[simp] theorem complete_engine (e : ErrCode) (m : Bool) (s : State) :
    (complete e m s).engine = { phase := .idle, cmdLatch := s.engine.cmdLatch, work := none } := rfl

@[simp] theorem complete_inReset (e : ErrCode) (m : Bool) (s : State) : (complete e m s).inReset = s.inReset := rfl

@[simp] theorem complete_program (e : ErrCode) (m : Bool) (s : State) : (complete e m s).program = s.program := rfl

@[simp] theorem complete_record (e : ErrCode) (m : Bool) (s : State) : (complete e m s).record = s.record := rfl

@[simp] theorem complete_turns (e : ErrCode) (m : Bool) (s : State) : (complete e m s).turns = s.turns := rfl

@[simp] theorem complete_draws (e : ErrCode) (m : Bool) (s : State) : (complete e m s).draws = s.draws := rfl

/-! ### writeTxt -/

@[simp] theorem writeTxt_regs (bs : List Byte) (s : State) :
    (writeTxt bs s).regs = { s.regs with txtLen := BitVec.ofNat 8 bs.length } := rfl

@[simp] theorem writeTxt_results (bs : List Byte) (s : State) : (writeTxt bs s).results = s.results := rfl

@[simp] theorem writeTxt_mem (bs : List Byte) (s : State) : (writeTxt bs s).mem = Memory.writeBytes s.mem txtBase bs := rfl

@[simp] theorem writeTxt_status (bs : List Byte) (s : State) : (writeTxt bs s).status = s.status := rfl

@[simp] theorem writeTxt_engine (bs : List Byte) (s : State) : (writeTxt bs s).engine = s.engine := rfl

@[simp] theorem writeTxt_inReset (bs : List Byte) (s : State) : (writeTxt bs s).inReset = s.inReset := rfl

@[simp] theorem writeTxt_program (bs : List Byte) (s : State) : (writeTxt bs s).program = s.program := rfl

@[simp] theorem writeTxt_record (bs : List Byte) (s : State) : (writeTxt bs s).record = s.record := rfl

@[simp] theorem writeTxt_turns (bs : List Byte) (s : State) : (writeTxt bs s).turns = s.turns := rfl

@[simp] theorem writeTxt_draws (bs : List Byte) (s : State) : (writeTxt bs s).draws = s.draws := rfl

/-! ### writeBin -/

@[simp] theorem writeBin_regs (bs : List Byte) (s : State) :
    (writeBin bs s).regs = { s.regs with binLen := BitVec.ofNat 8 bs.length } := rfl

@[simp] theorem writeBin_results (bs : List Byte) (s : State) : (writeBin bs s).results = s.results := rfl

@[simp] theorem writeBin_mem (bs : List Byte) (s : State) : (writeBin bs s).mem = Memory.writeBytes s.mem binBase bs := rfl

@[simp] theorem writeBin_status (bs : List Byte) (s : State) : (writeBin bs s).status = s.status := rfl

@[simp] theorem writeBin_engine (bs : List Byte) (s : State) : (writeBin bs s).engine = s.engine := rfl

@[simp] theorem writeBin_inReset (bs : List Byte) (s : State) : (writeBin bs s).inReset = s.inReset := rfl

@[simp] theorem writeBin_program (bs : List Byte) (s : State) : (writeBin bs s).program = s.program := rfl

@[simp] theorem writeBin_record (bs : List Byte) (s : State) : (writeBin bs s).record = s.record := rfl

@[simp] theorem writeBin_turns (bs : List Byte) (s : State) : (writeBin bs s).turns = s.turns := rfl

@[simp] theorem writeBin_draws (bs : List Byte) (s : State) : (writeBin bs s).draws = s.draws := rfl

/-! ### writeResults -/

@[simp] theorem writeResults_regs (r : HotpResult) (s : State) : (writeResults r s).regs = s.regs := rfl

@[simp] theorem writeResults_results (r : HotpResult) (s : State) : (writeResults r s).results = resultRegs r := rfl

@[simp] theorem writeResults_mem (r : HotpResult) (s : State) :
    (writeResults r s).mem = Memory.writeBytes s.mem digestBase r.digest := rfl

@[simp] theorem writeResults_status (r : HotpResult) (s : State) : (writeResults r s).status = s.status := rfl

@[simp] theorem writeResults_engine (r : HotpResult) (s : State) : (writeResults r s).engine = s.engine := rfl

@[simp] theorem writeResults_inReset (r : HotpResult) (s : State) : (writeResults r s).inReset = s.inReset := rfl

@[simp] theorem writeResults_program (r : HotpResult) (s : State) : (writeResults r s).program = s.program := rfl

@[simp] theorem writeResults_record (r : HotpResult) (s : State) : (writeResults r s).record = s.record := rfl

@[simp] theorem writeResults_turns (r : HotpResult) (s : State) : (writeResults r s).turns = s.turns := rfl

@[simp] theorem writeResults_draws (r : HotpResult) (s : State) : (writeResults r s).draws = s.draws := rfl

/-! ### dropWrite -/

@[simp] theorem dropWrite_regs (s : State) : (dropWrite s).regs = s.regs := rfl

@[simp] theorem dropWrite_results (s : State) : (dropWrite s).results = s.results := rfl

@[simp] theorem dropWrite_mem (s : State) : (dropWrite s).mem = s.mem := rfl

@[simp] theorem dropWrite_status (s : State) : (dropWrite s).status = { s.status with lost := true } := rfl

@[simp] theorem dropWrite_engine (s : State) : (dropWrite s).engine = s.engine := rfl

@[simp] theorem dropWrite_inReset (s : State) : (dropWrite s).inReset = s.inReset := rfl

@[simp] theorem dropWrite_program (s : State) : (dropWrite s).program = s.program := rfl

@[simp] theorem dropWrite_record (s : State) : (dropWrite s).record = s.record := rfl

@[simp] theorem dropWrite_turns (s : State) : (dropWrite s).turns = s.turns := rfl

@[simp] theorem dropWrite_draws (s : State) : (dropWrite s).draws = s.draws := rfl

/-! ### resetBlock -/

@[simp] theorem resetBlock_regs (s : State) : (resetBlock s).regs = Regs.reset := rfl

@[simp] theorem resetBlock_results (s : State) : (resetBlock s).results = Results.reset := rfl

@[simp] theorem resetBlock_mem (s : State) : (resetBlock s).mem = [] := rfl

@[simp] theorem resetBlock_status (s : State) : (resetBlock s).status = Status.reset := rfl

@[simp] theorem resetBlock_engine (s : State) : (resetBlock s).engine = Engine.reset := rfl

@[simp] theorem resetBlock_inReset (s : State) : (resetBlock s).inReset = s.inReset := rfl

@[simp] theorem resetBlock_program (s : State) : (resetBlock s).program = s.program := rfl

@[simp] theorem resetBlock_record (s : State) : (resetBlock s).record = s.record := rfl

@[simp] theorem resetBlock_turns (s : State) : (resetBlock s).turns = s.turns := rfl

@[simp] theorem resetBlock_draws (s : State) : (resetBlock s).draws = s.draws := rfl

/-! ### assertReset -/

@[simp] theorem assertReset_regs (s : State) : (assertReset s).regs = Regs.reset := rfl

@[simp] theorem assertReset_results (s : State) : (assertReset s).results = Results.reset := rfl

@[simp] theorem assertReset_mem (s : State) : (assertReset s).mem = [] := rfl

@[simp] theorem assertReset_status (s : State) : (assertReset s).status = Status.reset := rfl

@[simp] theorem assertReset_engine (s : State) : (assertReset s).engine = Engine.reset := rfl

@[simp] theorem assertReset_inReset (s : State) : (assertReset s).inReset = true := rfl

@[simp] theorem assertReset_program (s : State) : (assertReset s).program = s.program := rfl

@[simp] theorem assertReset_record (s : State) : (assertReset s).record = s.record := rfl

@[simp] theorem assertReset_turns (s : State) : (assertReset s).turns = s.turns := rfl

@[simp] theorem assertReset_draws (s : State) : (assertReset s).draws = s.draws := rfl

/-! ### popTurn -/

@[simp] theorem popTurn_regs (s : State) : (popTurn s).regs = s.regs := rfl

@[simp] theorem popTurn_results (s : State) : (popTurn s).results = s.results := rfl

@[simp] theorem popTurn_mem (s : State) : (popTurn s).mem = s.mem := rfl

@[simp] theorem popTurn_status (s : State) : (popTurn s).status = s.status := rfl

@[simp] theorem popTurn_engine (s : State) : (popTurn s).engine = s.engine := rfl

@[simp] theorem popTurn_inReset (s : State) : (popTurn s).inReset = s.inReset := rfl

@[simp] theorem popTurn_program (s : State) : (popTurn s).program = s.program := rfl

@[simp] theorem popTurn_record (s : State) : (popTurn s).record = s.record := rfl

@[simp] theorem popTurn_turns (s : State) : (popTurn s).turns = s.turns.tail := rfl

@[simp] theorem popTurn_draws (s : State) : (popTurn s).draws = s.draws := rfl

/-- Raising an error is completing with its code and MATCH = 0. -/
@[simp] theorem raiseError_eq (e : ErrCode) (s : State) : raiseError e s = complete e false s := rfl

end Sys2Proof.Machine
end

