-- ==== Sys2Proof/Laws/Bus.lean ====
section
/-! SUPPORT. The bus: what each window word is, and all a read or a write can do. -/

namespace Sys2Proof.Machine

theorem busy_eq_false {s : State} (h : s.engine.phase = .idle) : busy s = false := by simp [busy, h]

theorem busy_eq_true {s : State} (h : s.engine.phase = .run) : busy s = true := by simp [busy, h]

theorem busy_iff (s : State) : busy s = true ↔ s.engine.phase = .run := by
  unfold busy; cases s.engine.phase <;> simp

/-- Every register stands at its offset (10_state.md R17). -/
@[simp] theorem targetOf_regOffset (r : RegName) : targetOf (regOffset r) = .reg r := by cases r <;> decide

/-- TXT word `k` stands at `0x100 + 4k` (R17). -/
theorem targetOfWord_txt {n : Nat} (h : 64 ≤ n) (h' : n < 96) : targetOfWord n = .txt (n - 64) := by
  rw [targetOfWord, if_pos ⟨h, h'⟩]

/-- BIN word `k` stands at `0x200 + 4k` (R17). -/
theorem targetOfWord_bin {n : Nat} (h : 128 ≤ n) (h' : n < 148) : targetOfWord n = .bin (n - 128) := by
  rw [targetOfWord, if_neg (by omega), if_pos ⟨h, h'⟩]

/-- Below the windows the map is R17's table. -/
theorem targetOfWord_table {n : Nat} (h : n < 64) : targetOfWord n = mapTable.getD n .reserved := by
  rw [targetOfWord, if_neg (by omega), if_neg (by omega)]

/-- Past the table and outside the windows everything is reserved (R39). -/
theorem targetOfWord_reserved {n : Nat} (h : 21 ≤ n) (h1 : ¬ (64 ≤ n ∧ n < 96)) (h2 : ¬ (128 ≤ n ∧ n < 148)) :
    targetOfWord n = .reserved := by
  rw [targetOfWord, if_neg h1, if_neg h2]
  exact List.getD_eq_default _ _ h

/-- No word of the table is a window word. -/
theorem mapTable_not_window {t : Target} (h : t ∈ mapTable) : (∃ r, t = .reg r) ∨ t = .reserved := by
  simp only [mapTable, List.mem_cons, List.not_mem_nil, or_false] at h
  rcases h with h | h | h | h | h | h | h | h | h | h | h | h | h | h | h | h | h | h | h | h | h <;> simp [h]

/-- Where the window words stand: TXT word `k` at word `64 + k`, `k < 32`; BIN word `k` at word `128 + k`, `k < 20`. -/
theorem targetOfWord_window (n : Nat) :
    (∀ k, targetOfWord n = .txt k → k < 32 ∧ n = 64 + k) ∧ (∀ k, targetOfWord n = .bin k → k < 20 ∧ n = 128 + k) := by
  by_cases h1 : 64 ≤ n ∧ n < 96
  · rw [targetOfWord_txt h1.1 h1.2]; constructor <;> intro k hk <;> simp at hk; omega
  · by_cases h2 : 128 ≤ n ∧ n < 148
    · rw [targetOfWord_bin h2.1 h2.2]; constructor <;> intro k hk <;> simp at hk; omega
    · rw [targetOfWord, if_neg h1, if_neg h2]
      have : (∃ r, mapTable.getD n .reserved = .reg r) ∨ mapTable.getD n .reserved = .reserved := by
        by_cases hn : n < 21
        · rw [List.getD_eq_getElem _ _ hn]; exact mapTable_not_window (List.getElem_mem hn)
        · exact .inr (List.getD_eq_default _ _ (Nat.not_lt.1 hn))
      rcases this with ⟨r, h⟩ | h <;> rw [h] <;> constructor <;> intro k hk <;> cases hk

/-- Only word 0 is CMD. -/
theorem targetOfWord_cmd {n : Nat} (h : targetOfWord n = .reg .cmd) : n = 0 := by
  by_cases hn : n < 21
  · rw [targetOfWord_table (by omega)] at h
    have key : ∀ m : Fin 21, mapTable.getD m .reserved = .reg .cmd → m.val = 0 := by decide
    exact key ⟨n, hn⟩ h
  · by_cases h1 : 64 ≤ n ∧ n < 96
    · rw [targetOfWord_txt h1.1 h1.2] at h; cases h
    · by_cases h2 : 128 ≤ n ∧ n < 148
      · rw [targetOfWord_bin h2.1 h2.2] at h; cases h
      · rw [targetOfWord_reserved (by omega) h1 h2] at h; cases h

/-! ### Reads -/

/-- An idle read returns the word and changes nothing (R36, R45). -/
theorem busRead_idle {s : State} (h : s.engine.phase = .idle) (off : Offset) :
    busRead off s = (idleRead (targetOf off) s, s) := by simp [busRead, busy_eq_false h]

/-- All a read can do: nothing, or one free draw (R40, R45). -/
theorem busRead_state (off : Offset) (s : State) :
    (busRead off s).2 = s ∨ (busRead off s).2 = { s with draws := s.draws + 1 } := by
  unfold busRead; split
  · exact .inr rfl
  · exact .inl rfl

/-! ### Writes -/

theorem busWrite_busy {s : State} (h : s.engine.phase = .run) (off : Offset) (v : Word) :
    busWrite off v s = dropWrite s := by simp [busWrite, busy_eq_true h]

theorem busWrite_idle {s : State} (h : s.engine.phase = .idle) (off : Offset) (v : Word) :
    busWrite off v s = idleWrite (targetOf off) v s := by simp [busWrite, busy_eq_false h]

/-- All an idle write can do: accept a command, write the RW registers, or write one word of TXT or BIN (R37). -/
theorem idleWrite_cases (off : Offset) (v : Word) (s : State) :
    (off.toNat / 4 = 0 ∧ idleWrite (targetOf off) v s = accept v s) ∨
    (∃ regs, idleWrite (targetOf off) v s = { s with regs := regs }) ∨
    (∃ k, k < 32 ∧ idleWrite (targetOf off) v s = { s with mem := Memory.writeWord s.mem (0x100 + 4 * k) v }) ∨
    (∃ k, k < 20 ∧ idleWrite (targetOf off) v s = { s with mem := Memory.writeWord s.mem (0x200 + 4 * k) v }) := by
  obtain ⟨ht, hb⟩ := targetOfWord_window (off.toNat / 4)
  cases h : targetOf off with
  | reg r =>
    cases r with
    | cmd => exact .inl ⟨targetOfWord_cmd h, rfl⟩
    | _ => exact .inr (.inl ⟨_, rfl⟩)
  | txt k => exact .inr (.inr (.inl ⟨k, (ht k h).1, rfl⟩))
  | bin k => exact .inr (.inr (.inr ⟨k, (hb k h).1, rfl⟩))
  | reserved => exact .inr (.inl ⟨_, rfl⟩)

end Sys2Proof.Machine
end

