-- ==== Sys2Proof/Laws/Hotp.lean ====
section
/-! SUPPORT. HMAC-SHA1 and HOTPCALC: the lengths of their results. -/

namespace Sys2Proof.Machine

@[simp] theorem length_be32bytes (w : Word) : (be32bytes w).length = 4 := rfl

@[simp] theorem length_be64bytes (c : DWord) : (be64bytes c).length = 8 := rfl

/-- A SHA-1 digest has 20 bytes (41_hotp.md R61). -/
@[simp] theorem length_sha1 (m : List Byte) : (sha1 m).length = 20 := by simp [sha1, sha1Bytes]

/-- An HMAC-SHA1 digest has 20 bytes (R62). -/
@[simp] theorem length_hmacSha1 (k m : List Byte) : (hmacSha1 k m).length = 20 := by simp [hmacSha1]

@[simp] theorem ofDigest_digest (d : List Byte) : (ofDigest d).digest = d := rfl

@[simp] theorem hotpCalc_digest (k : List Byte) (c : DWord) : (hotpCalc k c).digest = hmacSha1 k (be64bytes c) := rfl

/-- The rest of a HOTPCALC result follows from its digest (R63). -/
theorem hotpCalc_eq_ofDigest (k : List Byte) (c : DWord) : hotpCalc k c = ofDigest (hotpCalc k c).digest := rfl

/-- A code has six characters (R63). -/
@[simp] theorem length_ofDigest_asc (d : List Byte) : (ofDigest d).asc.length = 6 := by simp [ofDigest]

/-- A character of a code is an ASCII digit (R28, R63). -/
theorem isdigit_codeChar (code i : Nat) : isdigit (codeChar code i) = true := by
  have h : code / 10 ^ (5 - i) % 10 < 10 := Nat.mod_lt _ (by decide)
  simp only [isdigit, codeChar, BitVec.toNat_ofNat, Bool.and_eq_true, decide_eq_true_eq]
  omega

end Sys2Proof.Machine
end

