-- ==== Sys2Proof/Laws/Exec.lean ====
section
/-! SUPPORT. The commands: exec is `finish` of the command's pseudocode, `finish` has two cases, and what each
pseudocode can do. -/

namespace Sys2Proof.Machine

/-- The pseudocode of each command, by name. -/
def bodyOf : Instr → State → Except ErrCode (State × Bool)
  | .enc => encBody
  | .dec => decBody false
  | .decS => decBody true
  | .hotp => hotpBody
  | .totp => totpBody
  | .verify => verifyBody
  | .zero => zeroBody

/-- Every command runs its pseudocode and completes (10_state.md R24). -/
theorem exec_eq_finish (i : Instr) (s : State) : exec i s = finish (bodyOf i) s := by cases i <;> rfl

/-- All a completion can do: an error writes only STATUS and the hidden state, a normal end keeps the pseudocode's
writes (60_exceptions.md R73, R74). -/
theorem finish_cases (body : State → Except ErrCode (State × Bool)) (s : State) :
    (∃ e, body s = .error e ∧ finish body s = .next (complete e false s)) ∨
    (∃ r, body s = .ok r ∧ finish body s = .next (complete .noError r.2 r.1)) := by
  unfold finish
  cases body s with
  | error e => exact .inl ⟨e, rfl, rfl⟩
  | ok r => exact .inr ⟨r, rfl, rfl⟩

theorem finish_error {body : State → Except ErrCode (State × Bool)} {s : State} {e : ErrCode} (h : body s = .error e) :
    finish body s = .next (complete e false s) := by simp [finish, h]

theorem finish_ok {body : State → Except ErrCode (State × Bool)} {s t : State} {m : Bool} (h : body s = .ok (t, m)) :
    finish body s = .next (complete .noError m t) := by simp [finish, h]

/-- A command always gives a next state. -/
theorem finish_isNext (body : State → Except ErrCode (State × Bool)) (s : State) : ∃ t, finish body s = .next t := by
  rcases finish_cases body s with ⟨e, _, h⟩ | ⟨r, _, h⟩ <;> exact ⟨_, h⟩

/-! ### What the pseudocode of each command can do -/

/-- ENC (40_base32.md R57). -/
theorem encBody_cases (s : State) :
    (80 < s.regs.binLen.toNat ∧ encBody s = .error .length) ∨
    (s.regs.binLen.toNat ≤ 80 ∧ (base32Encode (binInput s)).length ≤ 128 ∧
      encBody s = .ok (writeTxt (base32Encode (binInput s)) s, false)) := by
  by_cases h : 80 < s.regs.binLen.toNat
  · exact .inl ⟨h, by simp [encBody, h]⟩
  · exact .inr ⟨by omega, base32Encode_fits (by simp only [binInput, Memory.readBytes, List.length_map, List.length_range]; omega),
      by simp [encBody, h]⟩

/-- DEC and DEC.S (R59). -/
theorem decBody_cases (strict : Bool) (s : State) :
    (128 < s.regs.txtLen.toNat ∧ decBody strict s = .error .length) ∨
    (s.regs.txtLen.toNat ≤ 128 ∧ base32Decode (txtInput s) strict = none ∧ strict = true ∧
      decBody strict s = .error .invalidChar) ∨
    (∃ r, s.regs.txtLen.toNat ≤ 128 ∧ base32Decode (txtInput s) strict = some r ∧ r.length ≤ 80 ∧
      decBody strict s = .ok (writeBin r s, false)) := by
  by_cases h : 128 < s.regs.txtLen.toNat
  · exact .inl ⟨h, by simp [decBody, h]⟩
  · cases hd : base32Decode (txtInput s) strict with
    | none =>
      refine .inr (.inl ⟨by omega, rfl, ?_, by simp [decBody, h, hd]⟩)
      cases strict with
      | true => rfl
      | false => rw [base32Decode_lenient] at hd; simp at hd
    | some r =>
      exact .inr (.inr ⟨r, by omega, rfl,
        base32Decode_fits hd (by simp only [txtInput, Memory.readBytes, List.length_map, List.length_range]; omega),
        by simp [decBody, h, hd]⟩)

/-- HOTP (41_hotp.md R64). -/
theorem hotpBody_cases (s : State) :
    (80 < s.regs.binLen.toNat ∧ hotpBody s = .error .length) ∨
    (s.regs.binLen.toNat = 0 ∧ hotpBody s = .error .emptyKey) ∨
    (1 ≤ s.regs.binLen.toNat ∧ s.regs.binLen.toNat ≤ 80 ∧
      hotpBody s = .ok (writeResults (hotpCalc (binInput s) (cntValue s)) s, false)) := by
  by_cases h : 80 < s.regs.binLen.toNat
  · exact .inl ⟨h, by simp only [hotpBody, Config.binMax, h, if_true]⟩
  · by_cases h0 : s.regs.binLen.toNat = 0
    · exact .inr (.inl ⟨h0, by rw [hotpBody, if_neg (by simpa using h), if_pos h0]⟩)
    · exact .inr (.inr ⟨by omega, by omega, by simp only [hotpBody, Config.binMax, h, h0, if_false]⟩)

/-- The decoded secret fits BIN. -/
theorem secretOf_fits {s : State} (h : s.regs.txtLen.toNat ≤ 128) : (secretOf s).length ≤ 80 :=
  decodeLenient_fits (by simpa [txtInput, Memory.readBytes] using h)

/-- TOTP (42_totp.md R66). -/
theorem totpBody_cases (s : State) :
    (128 < s.regs.txtLen.toNat ∧ totpBody s = .error .length) ∨
    (s.regs.txtLen.toNat ≤ 128 ∧ secretOf s = [] ∧ totpBody s = .error .emptyKey) ∨
    (s.regs.txtLen.toNat ≤ 128 ∧ secretOf s ≠ [] ∧ (secretOf s).length ≤ 80 ∧
      totpBody s = .ok (writeResults (hotpCalc (secretOf s) (BitVec.ofNat 64 (tcount (timeValue s))))
        (writeBin (secretOf s) s), false)) := by
  by_cases h : 128 < s.regs.txtLen.toNat
  · exact .inl ⟨h, by simp only [totpBody, Config.txtMax, h, if_true]⟩
  · by_cases h0 : secretOf s = []
    · exact .inr (.inl ⟨by omega, h0, by simp [totpBody, h, h0]⟩)
    · exact .inr (.inr ⟨by omega, h0, secretOf_fits (by omega), by simp [totpBody, h, h0]⟩)

/-- VERIFY (R69). -/
theorem verifyBody_cases (s : State) :
    (128 < s.regs.txtLen.toNat ∧ verifyBody s = .error .length) ∨
    (s.regs.txtLen.toNat ≤ 128 ∧ fmtOk s = false ∧ verifyBody s = .ok (s, false)) ∨
    (s.regs.txtLen.toNat ≤ 128 ∧ fmtOk s = true ∧ (secretOf s).length ≤ 80 ∧
      verifyBody s = .ok (writeBin (secretOf s) s,
        !(secretOf s).isEmpty && windowMatch (secretOf s) (tcount (timeValue s)) (candSix s))) := by
  by_cases h : 128 < s.regs.txtLen.toNat
  · exact .inl ⟨h, by simp only [verifyBody, Config.txtMax, h, if_true]⟩
  · cases hf : fmtOk s with
    | false => exact .inr (.inl ⟨by omega, rfl, by simp [verifyBody, h, hf]⟩)
    | true =>
      refine .inr (.inr ⟨by omega, rfl, secretOf_fits (by omega), ?_⟩)
      cases hk : secretOf s with
      | nil => simp [verifyBody, h, hf, hk]
      | cons b bs => simp [verifyBody, h, hf, hk]

/-- No command touches STATUS, the hidden state, the host or the platform before its completion. -/
theorem body_keeps {i : Instr} {s : State} {r : State × Bool} (h : bodyOf i s = .ok r) :
    r.1.status = s.status ∧ r.1.engine = s.engine ∧ r.1.inReset = s.inReset ∧ r.1.program = s.program ∧
      r.1.record = s.record ∧ r.1.turns = s.turns ∧ r.1.draws = s.draws := by
  have dec : ∀ strict, decBody strict s = .ok r → r.1.status = s.status ∧ r.1.engine = s.engine ∧
      r.1.inReset = s.inReset ∧ r.1.program = s.program ∧ r.1.record = s.record ∧ r.1.turns = s.turns ∧
      r.1.draws = s.draws := by
    intro strict hd
    rcases decBody_cases strict s with ⟨_, e⟩ | ⟨_, _, _, e⟩ | ⟨_, _, _, _, e⟩ <;> rw [e] at hd <;> cases hd
    simp
  cases i with
  | enc => rcases encBody_cases s with ⟨_, e⟩ | ⟨_, _, e⟩ <;> rw [bodyOf, e] at h <;> cases h; simp
  | dec => exact dec _ h
  | decS => exact dec _ h
  | hotp => rcases hotpBody_cases s with ⟨_, e⟩ | ⟨_, e⟩ | ⟨_, _, e⟩ <;> rw [bodyOf, e] at h <;> cases h; simp
  | totp => rcases totpBody_cases s with ⟨_, e⟩ | ⟨_, _, e⟩ | ⟨_, _, _, e⟩ <;> rw [bodyOf, e] at h <;> cases h; simp
  | verify =>
    rcases verifyBody_cases s with ⟨_, e⟩ | ⟨_, _, e⟩ | ⟨_, _, _, e⟩ <;> rw [bodyOf, e] at h <;> cases h <;> simp
  | zero => cases h; simp

end Sys2Proof.Machine
end

