-- ==== Sys2Proof/Laws/PerInstr.lean ====
section
/-! SUPPORT. Statements made per instruction: each command's word decodes to it (30_encoding.md R50). -/

namespace Sys2Proof.Laws

/-- The command is well formed and its word decodes to it. -/
def EncodedWord.Statement (i : Instr) : Prop := i.wf = true ∧ decode (encode i) = .ok i

theorem EncodedWord.enc : EncodedWord.Statement .enc := ⟨rfl, by decide⟩

theorem EncodedWord.dec : EncodedWord.Statement .dec := ⟨rfl, by decide⟩

theorem EncodedWord.decS : EncodedWord.Statement .decS := ⟨rfl, by decide⟩

theorem EncodedWord.hotp : EncodedWord.Statement .hotp := ⟨rfl, by decide⟩

theorem EncodedWord.totp : EncodedWord.Statement .totp := ⟨rfl, by decide⟩

theorem EncodedWord.verify : EncodedWord.Statement .verify := ⟨rfl, by decide⟩

theorem EncodedWord.zero : EncodedWord.Statement .zero := ⟨rfl, by decide⟩

end Sys2Proof.Laws
end

