-- ==== Sys2Proof/Laws/Step.lean ====
section
/-! SUPPORT. One step: said once, everything a host turn, a completion and a step can do. -/

namespace Sys2Proof.Machine

/-! ### The schedule -/

theorem nextTurn_cons {s : State} {t : Turn} {ts : List Turn} (h : s.turns = t :: ts) : nextTurn s = t := by
  simp [nextTurn, h]

theorem step_cons {s : State} {t : Turn} {ts : List Turn} (h : s.turns = t :: ts) :
    step s = takeTurn t { s with turns := ts } := by simp [step, nextTurn, popTurn, h]

/-! ### The host -/

/-- All a host access can do: a read that joins the record (and may draw a free value), a write, or one poll of
STATUS. -/
theorem hostAccess_cases (op : HostOp) (rest : List HostOp) (off : Offset) (s : State) :
    (∃ v d, hostAccess op rest off s = { s with program := rest, record := s.record ++ [v], draws := d }) ∨
    (∃ v, hostAccess op rest off s = busWrite off v { s with program := rest }) ∨
    (hostAccess op rest off s = s) ∨
    (hostAccess op rest off s = { s with program := rest, record := s.record ++ [statusWord s] }) := by
  have rd : ∃ v d, hostRead off { s with program := rest } =
      { s with program := rest, record := s.record ++ [v], draws := d } := by
    simp only [hostRead]
    rcases busRead_state off { s with program := rest } with h | h <;> rw [h] <;> exact ⟨_, _, rfl⟩
  cases op with
  | rd o => exact .inl rd
  | rdAddr a => exact .inl rd
  | wr o v => exact .inr (.inl ⟨v, rfl⟩)
  | wrAddr a v => exact .inr (.inl ⟨v, rfl⟩)
  | wait =>
    simp only [hostAccess, hostWait]
    split
    · exact .inr (.inr (.inl rfl))
    · exact .inr (.inr (.inr rfl))

/-- All a host turn can do when it gives a next state: nothing, an access outside the block, or an access to it outside
reset. -/
theorem hostTurn_cases {s t : State} (h : hostTurn s = .next t) :
    t = s ∨ (∃ rest, t = { s with program := rest }) ∨
    (∃ op rest off, s.program = op :: rest ∧ s.inReset = false ∧ t = hostAccess op rest off s) := by
  unfold hostTurn at h
  split at h
  · cases h; exact .inl rfl
  · split at h
    · cases h; exact .inr (.inl ⟨_, rfl⟩)
    · split at h
      · cases h
      · cases h; exact .inr (.inr ⟨_, _, _, ‹_›, by simpa using ‹¬ s.inReset = true›, rfl⟩)

/-! ### The engine -/

/-- All a completion of the latched word can do (30_encoding.md R52). -/
theorem completeLatched_cases (s : State) :
    (∃ i, decode s.engine.cmdLatch = .ok i ∧ completeLatched s = exec i s) ∨
    (∃ e, decode s.engine.cmdLatch = .error e ∧ completeLatched s = .next (complete .illegalCmd false s)) := by
  unfold completeLatched fetchWord
  cases h : decode s.engine.cmdLatch with
  | ok i => exact .inl ⟨i, rfl, rfl⟩
  | error e => exact .inr ⟨e, rfl, rfl⟩

theorem engineComplete_run {s : State} (h : s.engine.phase = .run) : engineComplete s = completeLatched s := by
  simp [engineComplete, h]

theorem engineComplete_idle {s : State} (h : s.engine.phase = .idle) : engineComplete s = .next s := by
  simp [engineComplete, h]

/-! ### One step -/

/-- All a step can do when it gives a next state, by whose turn it is. -/
theorem step_cases {s t : State} (h : step s = .next t) :
    (nextTurn s = .host ∧ hostTurn (popTurn s) = .next t) ∨
    (nextTurn s = .cycle ∧ t = engineCycle (popTurn s)) ∨
    (nextTurn s = .complete ∧ s.engine.phase = .idle ∧ t = popTurn s) ∨
    (nextTurn s = .complete ∧ s.engine.phase = .run ∧ completeLatched (popTurn s) = .next t) ∨
    (nextTurn s = .assertReset ∧ t = assertReset (popTurn s)) ∨
    (nextTurn s = .releaseReset ∧ t = releaseReset (popTurn s)) := by
  unfold step at h
  cases ht : nextTurn s with
  | host => rw [ht] at h; exact .inl ⟨rfl, h⟩
  | cycle => rw [ht] at h; cases h; exact .inr (.inl ⟨rfl, rfl⟩)
  | complete =>
    rw [ht] at h
    cases hp : s.engine.phase with
    | idle =>
      have : takeTurn .complete (popTurn s) = .next (popTurn s) := engineComplete_idle hp
      rw [this] at h; cases h
      exact .inr (.inr (.inl ⟨rfl, rfl, rfl⟩))
    | run => exact .inr (.inr (.inr (.inl ⟨rfl, rfl, (engineComplete_run (s := popTurn s) hp) ▸ h⟩)))
  | assertReset => rw [ht] at h; cases h; exact .inr (.inr (.inr (.inr (.inl ⟨rfl, rfl⟩))))
  | releaseReset => rw [ht] at h; cases h; exact .inr (.inr (.inr (.inr (.inr ⟨rfl, rfl⟩))))

end Sys2Proof.Machine
end

