-- ==== Sys2Proof/Tests/Slice0.lean ====
section
/-! SUPPORT. Tests: ill-formed terms, command words written out bit by bit, single steps with the results of
spec/95_test_vectors.md, and a witness for the hypotheses of every statement that has any. -/

namespace Sys2Proof.Tests

open Sys2Proof Sys2Proof.Machine Sys2Proof.Spec

-- One kernel evaluation at a time: the SHA-1 tests need much memory side by side.
set_option Elab.async false

/-! ### WellFormed: each check refuses an ill-formed term -/

theorem test_txt_word_32_ill_formed : (Line.rd (.txt 32)).wf = false ∧ (Line.rd (.txt 31)).wf = true := by decide

theorem test_bin_word_20_ill_formed : (Line.rd (.bin 20)).wf = false ∧ (Line.rd (.bin 19)).wf = true := by decide

theorem test_literal_offset_0x1000_ill_formed :
    (Line.rd (.literal 0x1000)).wf = false ∧ (Line.rd (.literal 0xFFF)).wf = true := by decide

theorem test_imm_2_pow_32_ill_formed :
    (Line.wr (.reg .cntLo) (2 ^ 32)).wf = false ∧ (Line.wr (.reg .cntLo) (2 ^ 32 - 1)).wf = true := by decide

theorem test_wr_ill_formed_location : (Line.wr (.txt 32) 0).wf = false := by decide

theorem test_ldtxt_129_ill_formed :
    (Line.ldTxt (List.replicate 129 0)).wf = false ∧ (Line.ldTxt (List.replicate 128 0)).wf = true := by simp [Line.wf]

theorem test_ldbin_81_ill_formed :
    (Line.ldBin (List.replicate 81 0)).wf = false ∧ (Line.ldBin (List.replicate 80 0)).wf = true := by simp [Line.wf]

theorem test_ldcand_too_long_ill_formed (s : List Byte) (h : s.length = 2 ^ 32) : (Line.ldCand s).wf = false := by
  simp [Line.wf, h]

theorem test_ill_formed_program_refused : expandProgram [.wait, .rd (.txt 32)] = none := by decide

/-! ### Decode: words written out from 30_encoding.md R49, R50: `[31:9]`, S, `[7:4]`, OP -/

theorem test_decode_enc : decode 0b00000000000000000000000_0_0000_0001 = .ok .enc := by decide

theorem test_decode_dec : decode 0b00000000000000000000000_0_0000_0010 = .ok .dec := by decide

theorem test_decode_decS : decode 0b00000000000000000000000_1_0000_0010 = .ok .decS := by decide

theorem test_decode_hotp : decode 0b00000000000000000000000_0_0000_0011 = .ok .hotp := by decide

theorem test_decode_totp : decode 0b00000000000000000000000_0_0000_0100 = .ok .totp := by decide

theorem test_decode_verify : decode 0b00000000000000000000000_0_0000_0101 = .ok .verify := by decide

theorem test_decode_zero : decode 0b00000000000000000000000_0_0000_0110 = .ok .zero := by decide

/-- T-CTL-03 to T-CTL-10 of 95_test_vectors.md. -/
theorem test_decode_illegal :
    decode 0x00000000 = .error .reservedOp ∧ decode 0x00000007 = .error .reservedOp ∧
    decode 0x0000000F = .error .reservedOp ∧ decode 0x00000011 = .error .reservedBit ∧
    decode 0x00000101 = .error .strictWithoutDec ∧ decode 0x00000105 = .error .strictWithoutDec ∧
    decode 0x80000002 = .error .reservedBit ∧ decode 0x00000202 = .error .reservedBit := by decide

/-! ### Single steps -/

/-- What is seen of the next state, if there is one. -/
def seen {α : Type} (o : Host.Outcome State Fault Refusal) (f : State → α) : Option α :=
  match o with
  | .next t => some (f t)
  | .fault _ => none
  | .refused _ => none

/-- The reset state with `bs` as BIN and BIN_LEN. -/
def withBin (bs : List Byte) : State := writeBin bs State.reset

/-- The reset state with `bs` as TXT and TXT_LEN. -/
def withTxt (bs : List Byte) : State := writeTxt bs State.reset

/-- The 20-byte "RFC key" of 95_test_vectors.md. -/
def rfcKey : List Byte :=
  [0x31, 0x32, 0x33, 0x34, 0x35, 0x36, 0x37, 0x38, 0x39, 0x30, 0x31, 0x32, 0x33, 0x34, 0x35, 0x36, 0x37, 0x38, 0x39, 0x30]

/-- Its Base32 form, "GEZDGNBVGY3TQOJQ" twice. -/
def rfcText : List Byte :=
  [0x47, 0x45, 0x5A, 0x44, 0x47, 0x4E, 0x42, 0x56, 0x47, 0x59, 0x33, 0x54, 0x51, 0x4F, 0x4A, 0x51,
   0x47, 0x45, 0x5A, 0x44, 0x47, 0x4E, 0x42, 0x56, 0x47, 0x59, 0x33, 0x54, 0x51, 0x4F, 0x4A, 0x51]

/-- The RFC text with a time and a six-character candidate. -/
def verifyState (timeHi timeLo candLo candHi : Word) (candLen : Byte) : State :=
  let s := withTxt rfcText
  { s with regs := { s.regs with timeHi := timeHi, timeLo := timeLo, candLo := candLo, candHi := candHi, candLen := candLen } }

/-- The step that runs command word `w` from `s`. -/
def runWord (w : Nat) (s : State) : Host.Outcome State Fault Refusal := step (s.withFetchWord 32 w)

/-- T-ENC-07: the three TXT words. -/
theorem test_enc_foobar :
    seen (runWord 1 (withBin [0x66, 0x6F, 0x6F, 0x62, 0x61, 0x72])) (fun t => (statusWord t, t.regs.txtLen,
      (busRead 0x100 t).1, (busRead 0x104 t).1, (busRead 0x108 t).1)) =
    some (0x02, 10, 0x57585A4D, 0x42545936, 0x0000494F) := by decide +kernel

/-- T-ENC-15: only `TXT[0..4)` is written. -/
theorem test_enc_keeps_rest_of_txt :
    seen (runWord 1 (writeTxt (List.replicate 6 0x5A) (withBin [0x66, 0x6F]))) (fun t => (t.regs.txtLen, txtBytes t 7)) =
    some (4, [0x4D, 0x5A, 0x58, 0x51, 0x5A, 0x5A, 0x00]) := by decide +kernel

/-- T-DEC-04, lenient: "MZ XW-6YT=BOI". -/
theorem test_dec_drops_bad_characters :
    seen (runWord 2 (withTxt [0x4D, 0x5A, 0x20, 0x58, 0x57, 0x2D, 0x36, 0x59, 0x54, 0x3D, 0x42, 0x4F, 0x49]))
      (fun t => (statusWord t, t.regs.binLen, binBytes t 7)) =
    some (0x02, 6, [0x66, 0x6F, 0x6F, 0x62, 0x61, 0x72, 0x00]) := by decide +kernel

/-- T-DEC-25: only `BIN[0..1)` is written. -/
theorem test_dec_keeps_rest_of_bin :
    seen (runWord 2 (writeBin [0xAA, 0xBB, 0xCC] (withTxt [0x4D, 0x59]))) (fun t => (t.regs.binLen, binBytes t 4)) =
    some (1, [0x66, 0xBB, 0xCC, 0x00]) := by decide +kernel

/-- T-DEC-04, strict: INVALID_CHAR, BIN and BIN_LEN unchanged. -/
theorem test_decS_rejects_bad_characters :
    seen (runWord 0x102 (withTxt [0x4D, 0x5A, 0x20, 0x58, 0x57, 0x2D, 0x36, 0x59, 0x54, 0x3D, 0x42, 0x4F, 0x49]))
      (fun t => (statusWord t, t.regs.binLen, binBytes t 7)) =
    some (0x32, 0, List.replicate 7 0) := by decide +kernel

/-- T-DEC-17: tab, carriage return and line feed are skipped: "MZ\tXW\r\n". -/
theorem test_decS_skips_whitespace :
    seen (runWord 0x102 (withTxt [0x4D, 0x5A, 0x09, 0x58, 0x57, 0x0D, 0x0A]))
      (fun t => (statusWord t, t.regs.binLen, binBytes t 3)) =
    some (0x02, 2, [0x66, 0x6F, 0x00]) := by decide +kernel

/-- T-HOTP-01 (V1): code 755224, and its register images. -/
theorem test_hotp_rfc_key :
    seen (runWord 3 (withBin rfcKey)) (fun t => (statusWord t, t.results, (busRead 0x040 t).1, (busRead 0x050 t).1)) =
    some (0x02, { binCode := 0x4C93CF18, code := 0x000B8618, codeAscLo := 0x32353537, codeAscHi := 0x00003432 },
      0x18CF93CC, 0xB0E4CDB7) := by decide +kernel

/-- T-HOTP-16: a key of 65 bytes, 00 to 40, is hashed first. -/
theorem test_hotp_long_key :
    seen (runWord 3 (withBin ((List.range 65).map (BitVec.ofNat 8)))) (fun t => (t.results.binCode, t.results.code)) =
    some (0x0B39CD64, 337508) := by decide +kernel

/-- T-TOTP-11: time 20000000000, which needs TIME_HI. -/
theorem test_totp_wide_time :
    seen (runWord 4 (verifyState 0x4 0xA817C800 0 0 0)) (fun t => (statusWord t, t.results.code, t.regs.binLen,
      binBytes t 20)) = some (0x02, 353130, 20, rfcKey) := by decide +kernel

/-- T-TOTP-15: "1890" decodes to nothing: EMPTY_KEY. -/
theorem test_totp_empty_key :
    seen (runWord 4 (withTxt [0x31, 0x38, 0x39, 0x30])) (fun t => (statusWord t, t.regs.binLen, t.results)) =
    some (0x42, 0, Results.reset) := by decide +kernel

/-- T-VER-01: a match at delta = -1. -/
theorem test_verify_earlier_period :
    seen (runWord 5 (verifyState 0 59 0x32353537 0x00003432 6)) (fun t => (statusWord t, t.regs.binLen, t.results)) =
    some (0x0A, 20, Results.reset) := by decide +kernel

/-- T-VER-07: at time 0 delta = -1 is skipped; the code of counter 2^64 - 1 does not match. -/
theorem test_verify_skips_negative_counter :
    seen (runWord 5 (verifyState 0 0 0x34343930 0x00003135 6)) (fun t => (statusWord t, t.regs.binLen)) =
    some (0x02, 20) := by decide +kernel

/-- T-CTL-01: every register and buffer zero; LOST is no flag ZERO sets. -/
theorem test_zero :
    seen (runWord 6 (verifyState 1 2 3 4 6)) (fun t => (statusWord t, t.regs, t.results, t.mem)) =
    some (0x02, Regs.reset, Results.reset, []) := by decide +kernel

/-- T-CTL-11: ILLEGAL_CMD, not LENGTH. -/
theorem test_illegal_before_length :
    seen (runWord 0x10 { State.reset with regs := { Regs.reset with binLen := 81 } })
      (fun t => (statusWord t, t.regs.binLen)) = some (0x12, 81) := by decide +kernel

/-- T-BUS-03, T-BUS-05 and T-BUS-08: RAZ/WI bits, ignored offset bits, the end of BIN. -/
theorem test_bus_writes :
    (busRead 0x00C (busWrite 0x00C 0x181 State.reset)).1 = 0x81 ∧
    (busRead 0x100 (busWrite 0x101 0x11223344 State.reset)).1 = 0x11223344 ∧
    (busRead 0x250 (busWrite 0x250 7 State.reset)).1 = 0 := by decide +kernel

/-- T-BUS-11: a write to a busy block is dropped and sets LOST. -/
theorem test_bus_busy_write :
    (busWrite 0x018 30 (accept 5 State.reset)).status.lost = true ∧
    (busWrite 0x018 30 (accept 5 State.reset)).regs.timeLo = 0 := by decide +kernel

/-- P1's LDBIN line of "foobar". -/
theorem test_ldbin_expansion :
    expandLine (.ldBin [0x66, 0x6F, 0x6F, 0x62, 0x61, 0x72]) =
      [.wr 0x200 0x626F6F66, .wr 0x204 0x00007261, .wr 0x008 0x00000006] := by decide

/-- P3's LDCAND "287082" and P2's LDCNT and RUN lines. -/
theorem test_ldcand_ldcnt_run_expansion :
    expandLine (.ldCand [0x32, 0x38, 0x37, 0x30, 0x38, 0x32]) =
      [.wr 0x020 0x30373832, .wr 0x024 0x00003238, .wr 0x028 0x00000006] ∧
    expandLine (.ldCnt 1) = [.wr 0x010 1, .wr 0x014 0] ∧
    expandLine (.run .hotp) = [.wr 0x000 3, .wait] := by decide

/-! ### Witnesses: states and operands that meet the hypotheses of the statements -/

/-- A running command with word `w`, scheduled turns `ts`. -/
def running (w : Word) (ts : List Turn) : State := { accept w State.reset with turns := ts }

/-- An idle block whose host has `ops` to do, with scheduled turns `ts`. -/
def hosting (ops : List HostOp) (ts : List Turn) : State := { State.reset with program := ops, turns := ts }

/-- Reserved bits 4, 7, 9 and 31; OP 0, 7 and 15; S with ENC and with OP 3. -/
theorem witness_ReservedAndStrictWordsAreIllegal :
    (4 ≤ 4 ∧ 4 ≤ 7 ∧ (0x00000011 : Word).getLsbD 4 = true) ∧ (4 ≤ 7 ∧ 7 ≤ 7 ∧ (0x00000081 : Word).getLsbD 7 = true) ∧
    (9 ≤ 9 ∧ 9 ≤ 31 ∧ (0x00000202 : Word).getLsbD 9 = true) ∧
    (9 ≤ 31 ∧ 31 ≤ 31 ∧ (0x80000002 : Word).getLsbD 31 = true) ∧
    (0x00000000 : Word).toNat % 16 = 0 ∧ 7 ≤ (0x00000007 : Word).toNat % 16 ∧ 7 ≤ (0x0000000F : Word).toNat % 16 ∧
    ((0x00000101 : Word).getLsbD 8 = true ∧ (0x00000101 : Word).toNat % 16 ≠ 2) ∧
    ((0x00000103 : Word).getLsbD 8 = true ∧ (0x00000103 : Word).toNat % 16 ≠ 2) := by decide

theorem word_7_is_no_command : ∀ i, (7 : Word) ≠ encode i := by intro i; cases i <;> decide

/-- Idle at offsets 0 and 3; running; running an illegal word. -/
theorem witness_CmdWriteIsAcceptedWhateverItsValue :
    State.reset.engine.phase = .idle ∧ (0x000 : Offset).toNat / 4 = 0 ∧ (0x003 : Offset).toNat / 4 = 0 ∧
    (running 5 []).engine.phase = .run ∧
    (running 7 []).engine.phase = .run ∧ ∀ i, (running 7 []).engine.cmdLatch ≠ encode i :=
  ⟨rfl, by decide, by decide, rfl, rfl, word_7_is_no_command⟩

theorem witness_WriteWhileBusyIsDroppedAndSetsLost : (running 5 []).engine.phase = .run := rfl

/-- HOTP with BIN_LEN 0 raises EMPTY_KEY. -/
theorem witness_ErroringCommandWritesOnlyStatus :
    ∃ t, exec .hotp State.reset = .next t ∧ t.status.err ≠ .noError := ⟨_, rfl, by decide⟩

/-- "1890" decodes to nothing. -/
theorem witness_ErrorsAreExactlyTheSpecs : secret (withTxt [0x31, 0x38, 0x39, 0x30]) = [] := by decide +kernel

theorem witness_IllegalWordCompletesWithIllegalCmd :
    State.reset.engine.phase = .idle ∧ (0x003 : Offset).toNat / 4 = 0 ∧ (∀ i, (7 : Word) ≠ encode i) ∧
    (running 7 [.complete]).turns = .complete :: [] ∧ (running 7 [.complete]).engine.phase = .run ∧
    ∀ i, (running 7 [.complete]).engine.cmdLatch ≠ encode i :=
  ⟨rfl, by decide, word_7_is_no_command, rfl, rfl, word_7_is_no_command⟩

/-- With a completion scheduled, and with the schedule used up. -/
theorem witness_StepRunsTheLatchedCommand :
    nextTurn (running 1 [.complete]) = .complete ∧ (running 1 [.complete]).engine.phase = .run ∧
    decode (running 1 [.complete]).engine.cmdLatch = .ok .enc ∧ nextTurn (running 6 []) = .complete ∧
    (running 6 []).engine.phase = .run ∧ decode (running 6 []).engine.cmdLatch = .ok .zero :=
  ⟨rfl, rfl, by decide, rfl, rfl, by decide⟩

theorem witness_CyclesMoveOnlyWorkingValues :
    (running 1 [.cycle]).turns = .cycle :: [] ∧ (running 1 [.cycle]).engine.phase = .run ∧
    (hosting [] [.cycle]).turns = .cycle :: [] ∧ (hosting [] [.complete]).turns = .complete :: [] ∧
    (hosting [] [.cycle]).engine.phase = .idle ∧ (hosting [] [.complete]).engine.phase = .idle :=
  ⟨rfl, rfl, rfl, rfl, rfl, rfl⟩

/-- For every command two different states with the same operands. -/
theorem witness_CommandsReadOnlyTheirOperands (i : Instr) :
    Memory.wf State.reset.mem = true ∧
    Memory.wf ({ State.reset with draws := 1, status := { Status.reset with lost := true } } : State).mem = true ∧
    sameOperands i State.reset { State.reset with draws := 1, status := { Status.reset with lost := true } } := by
  refine ⟨rfl, rfl, ?_⟩
  cases i <;> simp [sameOperands, binBytes, txtBytes]

/-- A host read, and a host write to a register. -/
theorem witness_StatusHoldsUntilTheNextAccept :
    (∃ t, step (hosting [.rd 0x004] []) = .next t ∧ t.engine.phase = .idle) ∧
    (∃ t, step (hosting [.wr 0x018 30] []) = .next t ∧ t.engine.phase = .idle) ∧
    (hosting [.rd 0x004] []).engine.phase = .idle ∧ ¬ resetTurn (hosting [.rd 0x004] []) ∧
    ¬ resetTurn (hosting [.wr 0x018 30] []) :=
  ⟨⟨_, rfl, rfl⟩, ⟨_, rfl, rfl⟩, rfl, by simp [resetTurn, nextTurn, hosting, State.reset, Engine.reset],
    by simp [resetTurn, nextTurn, hosting, State.reset, Engine.reset]⟩

/-- A CMD write accepted by an idle block with LOST set. -/
theorem witness_OnlyAcceptOrResetClearsLost :
    ∃ t, step { hosting [.wr 0x000 1] [] with status := { Status.reset with done := true, lost := true } } = .next t ∧
      t.status.lost = false := ⟨_, rfl, rfl⟩

/-- Cycles, host turns and a release scheduled, no completion. -/
theorem witness_EveryAcceptedCommandCompletesInTheEnd :
    (running 5 [.cycle, .host, .releaseReset]).engine.phase = .run ∧
    (running 5 [.cycle, .host, .releaseReset]).inReset = false ∧
    Turn.assertReset ∉ (running 5 [.cycle, .host, .releaseReset]).turns := ⟨rfl, rfl, by simp [running]⟩

theorem witness_IdleReadsFollowTheRegisterMap :
    State.reset.engine.phase = .idle ∧ 0 < 5 ∧ 4 < 5 ∧ 0 < 32 ∧ 31 < 32 ∧ 0 < 20 ∧ 19 < 20 := by decide

/-- The offsets next to STATUS on both sides, and STATUS's own four. -/
theorem witness_BusyReadsAreFreeButStatus :
    (running 5 []).engine.phase = .run ∧ (0x004 : Offset).toNat / 4 = 1 ∧ (0x007 : Offset).toNat / 4 = 1 ∧
    (0x003 : Offset).toNat / 4 ≠ 1 ∧ (0x008 : Offset).toNat / 4 ≠ 1 := ⟨rfl, by decide, by decide, by decide, by decide⟩

/-- An offset is in one of the reserved ranges of the statement. -/
def isReserved (off : Offset) : Bool :=
  decide (0x02C ≤ off.toNat ∧ off.toNat ≤ 0x02F ∨ 0x054 ≤ off.toNat ∧ off.toNat ≤ 0x0FF ∨
      0x180 ≤ off.toNat ∧ off.toNat ≤ 0x1FF ∨ 0x250 ≤ off.toNat)

/-- Both ends of every reserved range, and the offsets next to them outside. -/
theorem witness_ReservedOffsetsReadZeroAndIgnoreWrites :
    [0x02C, 0x02F, 0x054, 0x0FF, 0x180, 0x1FF, 0x250, 0xFFF].all isReserved = true ∧
    [0x02B, 0x030, 0x053, 0x100, 0x17F, 0x200, 0x24F].any isReserved = false := by decide

/-- STATUS, BINCODE's first and DIGEST4's last byte offset. -/
theorem witness_ReadOnlyRegistersIgnoreWrites :
    State.reset.engine.phase = .idle ∧ (0x004 : Offset).toNat / 4 = 1 ∧
    (12 ≤ (0x030 : Offset).toNat / 4 ∧ (0x030 : Offset).toNat / 4 ≤ 20) ∧
    (12 ≤ (0x053 : Offset).toNat / 4 ∧ (0x053 : Offset).toNat / 4 ≤ 20) := by decide

theorem witness_OffsetBitsOneAndZeroAreIgnored : Config.base + 0xFFF < Config.base + 0x1000 := by omega

/-- An RW register, a length, a window word, an RO register, a reserved offset. -/
theorem witness_ReadReturnsTheLatestWrite :
    State.reset.engine.phase = .idle ∧ Memory.wf State.reset.mem = true ∧
    [0x004, 0x008, 0x010, 0x024, 0x028, 0x02C, 0x030, 0x100, 0x17C, 0x200, 0x24C, 0x250].all
      (fun off : Offset => decide (off.toNat / 4 ≠ 0)) = true := by decide

theorem witness_WindowWritesSetTheFourLanes :
    State.reset.engine.phase = .idle ∧ Memory.wf State.reset.mem = true ∧ 0 < 32 ∧ 31 < 32 ∧ 0 < 20 ∧ 19 < 20 := by decide

/-- A busy and an idle block with a WAIT to do. -/
theorem witness_WaitRecordsTheFirstIdleStatus :
    (hosting [.wait] [.host]).program = .wait :: [] ∧ (hosting [.wait] [.host]).turns = .host :: [] ∧
    (hosting [.wait] [.host]).inReset = false ∧ (hosting [.wait] [.host]).engine.phase = .idle ∧
    ({ running 1 [.host] with program := [.wait] } : State).program = .wait :: [] ∧
    ({ running 1 [.host] with program := [.wait] } : State).turns = .host :: [] ∧
    ({ running 1 [.host] with program := [.wait] } : State).engine.phase = .run := ⟨rfl, rfl, rfl, rfl, rfl, rfl, rfl⟩

/-- The empty sequence and the longest ones. -/
theorem witness_LoadLinesPlaceTheirBytes :
    (hosting (expandLine (.ldTxt (List.replicate 128 0x41))) []).engine.phase = .idle ∧
    (hosting (expandLine (.ldTxt (List.replicate 128 0x41))) []).inReset = false ∧
    Memory.wf (hosting (expandLine (.ldTxt (List.replicate 128 0x41))) []).mem = true ∧
    (hosting (expandLine (.ldTxt (List.replicate 128 0x41))) []).turns = [] ∧
    (List.replicate 128 (0x41 : Byte)).length ≤ 128 ∧ (List.replicate 80 (0x41 : Byte)).length ≤ 80 ∧
    (hosting (expandLine (.ldTxt [])) []).program = expandLine (.ldTxt []) ∧
    (hosting (expandLine (.ldBin (List.replicate 80 0x41))) []).program = expandLine (.ldBin (List.replicate 80 0x41)) :=
  ⟨rfl, rfl, rfl, rfl, by simp, by simp, rfl, rfl⟩

/-- T-ENC-08: a byte 0x00 encodes to "AA". -/
theorem witness_EncodeGivesAlphabetCharacters : (0x41 : Byte) ∈ base32Encode [0x00] := by decide

/-- T-DEC-08, in both modes. -/
theorem witness_DecodeLengthIsFiveEighths :
    base32Decode [0x41, 0x42, 0x43] true = some [0x00] ∧ base32Decode [0x41, 0x42, 0x43] false = some [0x00] := by decide

theorem witness_EncThenDecRestoresBin :
    Memory.wf (withBin (List.replicate 80 0xFF)).mem = true ∧ (withBin (List.replicate 80 0xFF)).regs.binLen.toNat ≤ 80 := by
  decide +kernel

/-- BIN_LEN 80 and 81. -/
theorem witness_EncWritesTheEncodingOfBin :
    (withBin (List.replicate 80 0xFF)).regs.binLen.toNat ≤ 80 ∧ Memory.wf (withBin (List.replicate 80 0xFF)).mem = true ∧
    80 < ({ State.reset with regs := { Regs.reset with binLen := 81 } } : State).regs.binLen.toNat := by decide +kernel

/-- TXT_LEN 129; "=" in strict mode; "MY" in both modes; TXT_LEN 128. -/
theorem witness_DecWritesTheDecodingOfTxt :
    (128 < ({ State.reset with regs := { Regs.reset with txtLen := 129 } } : State).regs.txtLen.toNat) ∧
    ((withTxt [0x3D]).regs.txtLen.toNat ≤ 128 ∧ base32Decode (txtBytes (withTxt [0x3D]) 1) true = none) ∧
    ((withTxt [0x4D, 0x59]).regs.txtLen.toNat ≤ 128 ∧ Memory.wf (withTxt [0x4D, 0x59]).mem = true ∧
      base32Decode (txtBytes (withTxt [0x4D, 0x59]) 2) true = some [0x66] ∧
      base32Decode (txtBytes (withTxt [0x4D, 0x59]) 2) false = some [0x66]) ∧
    (withTxt (List.replicate 128 0x41)).regs.txtLen.toNat ≤ 128 := by decide +kernel

theorem witness_PaddingFillsWholeBlocks : (([] : List Byte).length + 1 + 55) % 64 = 56 := by decide

/-- Keys of 64 and of 65 bytes. -/
theorem witness_HmacKeyIsOneBlock :
    (List.replicate 64 (0 : Byte)).length ≤ 64 ∧ 63 < 64 ∧ 64 < (List.replicate 65 (0 : Byte)).length := by decide

/-- BIN_LEN 0, 1, 80 and 81. -/
theorem witness_HotpWritesTheCodeOfBinAndCnt :
    State.reset.regs.binLen.toNat = 0 ∧
    (1 ≤ (withBin [0]).regs.binLen.toNat ∧ (withBin [0]).regs.binLen.toNat ≤ 80 ∧ Memory.wf (withBin [0]).mem = true) ∧
    (1 ≤ (withBin (List.replicate 80 1)).regs.binLen.toNat ∧ (withBin (List.replicate 80 1)).regs.binLen.toNat ≤ 80 ∧
      Memory.wf (withBin (List.replicate 80 1)).mem = true) ∧
    80 < ({ State.reset with regs := { Regs.reset with binLen := 81 } } : State).regs.binLen.toNat := by decide +kernel

/-- The RFC key and the RFC text complete without error. -/
theorem witness_ResultRegistersHoldOneCode :
    (∃ t, exec .hotp (withBin rfcKey) = .next t ∧ t.status.err = .noError) ∧
    (∃ t, exec .totp (withTxt rfcText) = .next t ∧ t.status.err = .noError) := by
  constructor
  · rcases hotpBody_cases (withBin rfcKey) with ⟨h, _⟩ | ⟨h, _⟩ | ⟨_, _, e⟩
    · exact absurd h (by decide)
    · exact absurd h (by decide)
    · exact ⟨_, finish_ok e, rfl⟩
  · rcases totpBody_cases (withTxt rfcText) with ⟨h, _⟩ | ⟨_, h, _⟩ | ⟨_, _, _, e⟩
    · exact absurd h (by decide)
    · exact absurd h (by decide +kernel)
    · exact ⟨_, finish_ok e, rfl⟩

/-- TXT_LEN 129; "1890"; the RFC text. -/
theorem witness_TotpWritesTheCodeOfTxtAndTime :
    128 < ({ State.reset with regs := { Regs.reset with txtLen := 129 } } : State).regs.txtLen.toNat ∧
    ((withTxt [0x31, 0x38, 0x39, 0x30]).regs.txtLen.toNat ≤ 128 ∧ secret (withTxt [0x31, 0x38, 0x39, 0x30]) = []) ∧
    ((withTxt rfcText).regs.txtLen.toNat ≤ 128 ∧ secret (withTxt rfcText) ≠ [] ∧ Memory.wf (withTxt rfcText).mem = true) := by
  decide +kernel

theorem witness_TotpIsDecThenHotp :
    Memory.wf (withTxt rfcText).mem = true ∧ (withTxt rfcText).regs.txtLen.toNat ≤ 128 ∧ secret (withTxt rfcText) ≠ [] := by
  decide +kernel

/-- "12a456" fails the gate. -/
theorem witness_FormatGateIsSixDigits :
    (verifyState 0 0 0x34613231 0x00003635 6).regs.txtLen.toNat ≤ 128 ∧
    fmtOk (verifyState 0 0 0x34613231 0x00003635 6) = false := by decide +kernel

/-- TXT_LEN 129; seven characters; "287082". -/
theorem witness_VerifySetsMatch :
    128 < ({ State.reset with regs := { Regs.reset with txtLen := 129 } } : State).regs.txtLen.toNat ∧
    ((verifyState 0 59 0x30373832 0x00003238 7).regs.txtLen.toNat ≤ 128 ∧
      fmtOk (verifyState 0 59 0x30373832 0x00003238 7) = false) ∧
    ((verifyState 0 59 0x30373832 0x00003238 6).regs.txtLen.toNat ≤ 128 ∧
      fmtOk (verifyState 0 59 0x30373832 0x00003238 6) = true ∧
      Memory.wf (verifyState 0 59 0x30373832 0x00003238 6).mem = true) := by decide +kernel

/-- Times 59 and 89 (30 seconds apart), and 0 and 59 (one counter apart). -/
theorem witness_VerifyAcceptsTotpWithinOnePeriod :
    (verifyState 0 59 0 0 0).regs.txtLen.toNat ≤ 128 ∧ secret (verifyState 0 59 0 0 0) ≠ [] ∧
    (((verifyState 0 59 0 0 0).regs.timeHi ++ (verifyState 0 59 0 0 0).regs.timeLo).toNat ≤ (89 : DWord).toNat + 30 ∧
      (89 : DWord).toNat ≤ ((verifyState 0 59 0 0 0).regs.timeHi ++ (verifyState 0 59 0 0 0).regs.timeLo).toNat + 30) ∧
    (((verifyState 0 0 0 0 0).regs.timeHi ++ (verifyState 0 0 0 0 0).regs.timeLo).toNat / 30 ≤ (59 : DWord).toNat / 30 + 1 ∧
      (59 : DWord).toNat / 30 ≤ ((verifyState 0 0 0 0 0).regs.timeHi ++ (verifyState 0 0 0 0 0).regs.timeLo).toNat / 30 + 1) := by
  decide +kernel

/-- Every offset but STATUS's: CMD's and the last. -/
theorem witness_ZeroErasesEverything : (0x003 : Offset).toNat / 4 ≠ 1 ∧ (0xFFF : Offset).toNat / 4 ≠ 1 := by decide

/-- A reset while a command runs; a release; an access while reset is asserted. -/
theorem witness_ResetAbandonsTheCommand :
    (running 3 [.assertReset, .releaseReset]).turns = .assertReset :: .releaseReset :: [] ∧
    ({ running 3 [.releaseReset] with inReset := true } : State).turns = .releaseReset :: [] ∧
    ({ running 3 [.releaseReset] with inReset := true } : State).inReset = true ∧
    ({ hosting [.rd 0x004] [.host] with inReset := true } : State).turns = .host :: [] ∧
    ({ hosting [.rd 0x004] [.host] with inReset := true } : State).program = .rd 0x004 :: [] ∧
    selects (.rd 0x004) = some 0x004 ∧ ({ hosting [.rd 0x004] [.host] with inReset := true } : State).inReset = true :=
  ⟨rfl, rfl, rfl, rfl, rfl, rfl, rfl⟩

/-- A host write, and a ZERO, that change an input register. -/
theorem witness_OnlyHostZeroAndResetWriteTheInputs :
    seen (step (hosting [.wr 0x010 1] [])) (fun t => t.regs.cntLo) = some 1 ∧
    seen (runWord 6 (verifyState 0 59 0 0 0)) (fun t => t.regs.timeLo) = some 0 := by decide +kernel

/-- A ZERO that changes a result register. -/
theorem witness_OnlyHotpTotpZeroAndResetWriteResults :
    seen (runWord 6 { State.reset with results := { Results.reset with code := 5 } }) (fun t => t.results.code) = some 0 := by
  decide +kernel

/-- An ENC that changes TXT and a DEC that changes BIN. -/
theorem witness_OnlyTheNamedCommandsWriteTheBuffers :
    seen (runWord 1 (withBin [0x66])) (fun t => decide (txtBytes t 128 = txtBytes (withBin [0x66]) 128)) = some false ∧
    seen (runWord 2 (withTxt [0x4D, 0x59])) (fun t => decide (binBytes t 80 = binBytes (withTxt [0x4D, 0x59]) 80)) =
      some false := by decide +kernel

theorem witness_CanonicalMemoryIsDeterminedByItsBytes :
    Memory.wf [(0x100, 0x41)] = true ∧ Memory.wf (Memory.write (Memory.write [] 0x100 0x41) 0x200 0) = true ∧
    ∀ a, Memory.read [(0x100, 0x41)] a = Memory.read (Memory.write (Memory.write [] 0x100 0x41) 0x200 0) a :=
  ⟨by decide, by decide, fun _ => rfl⟩

/-- The reset state and its step; memories with entries out of order or with a listed 0x00 are not canonical. -/
theorem witness_EveryStepKeepsTheInvariant :
    Inv State.reset ∧ (∃ t, step State.reset = .next t) ∧ Memory.wf [(0x101, 0x41), (0x100, 0x42)] = false ∧
    Memory.wf [(0x100, 0x00)] = false := by
  refine ⟨⟨rfl, rfl, ⟨by decide, by decide⟩, .inl ⟨rfl, rfl⟩, fun _ => rfl, fun h => by cases h⟩, ⟨_, rfl⟩, by decide, by decide⟩

end Sys2Proof.Tests
end

section
/-! What a command word that decodes is, what a command's pseudocode can write, and what a command, a host turn
and a cycle can do. -/

namespace Sys2Proof.Machine

/-! ### The decoder -/

/-- The reserved bits are 0 exactly where OP and S make up the whole word (30_encoding.md R49). -/
theorem toNat_of_reservedClear {w : Word} (h : reservedClear w = true) :
    w.toNat = 256 * (strictField w).toNat + (opField w).toNat := by
  have hs : (strictField w).toNat = w.toNat / 256 % 2 := by
    simp [strictField, BitVec.getLsbD, Nat.toNat_testBit]
  simp only [reservedClear, Bool.and_eq_true, beq_iff_eq, BitVec.toNat_eq, BitVec.extractLsb'_toNat,
    Nat.shiftRight_eq_div_pow, BitVec.toNat_ofNat] at h
  obtain ⟨h4, h9⟩ := h
  have ho : (opField w).toNat = w.toNat % 16 := by simp [opField]
  have := w.isLt
  omega

/-- A word that decodes to a command is that command's own word (R50). -/
theorem eq_encode_of_decode {w : Word} {i : Instr} (h : decode w = .ok i) : w = encode i := by
  unfold decode at h
  split at h
  · cases h
  next hr =>
    have hw := toNat_of_reservedClear (by simpa using hr)
    split at h
    · cases h
    next hs =>
      apply BitVec.eq_of_toNat_eq
      cases hS : strictField w with
      | true =>
        have ho : opField w = 2#4 := by simpa [hS] using hs
        simp only [ho, hS] at h hw
        cases h; exact hw
      | false =>
        simp only [hS] at h hw
        split at h <;> cases h <;> simp_all [encode, commandWord]

/-- Every command's word decodes to it (R50). -/
theorem decode_encode (i : Instr) : decode (encode i) = .ok i := by
  cases i with
  | enc => exact Laws.EncodedWord.enc.2
  | dec => exact Laws.EncodedWord.dec.2
  | decS => exact Laws.EncodedWord.decS.2
  | hotp => exact Laws.EncodedWord.hotp.2
  | totp => exact Laws.EncodedWord.totp.2
  | verify => exact Laws.EncodedWord.verify.2
  | zero => exact Laws.EncodedWord.zero.2

/-! ### What a command's pseudocode writes -/

/-- All that the pseudocode of a command can end with when it raises no error: the state it leaves and its MATCH
(10_state.md R35). -/
inductive BodyWrites (s : State) : Instr → State × Bool → Prop where
  | enc (bs : List Byte) (fits : bs.length ≤ 128) : BodyWrites s .enc (writeTxt bs s, false)
  | dec (bs : List Byte) (fits : bs.length ≤ 80) : BodyWrites s .dec (writeBin bs s, false)
  | decS (bs : List Byte) (fits : bs.length ≤ 80) : BodyWrites s .decS (writeBin bs s, false)
  | hotp (k : List Byte) (c : DWord) : BodyWrites s .hotp (writeResults (hotpCalc k c) s, false)
  | totp (k : List Byte) (c : DWord) (bs : List Byte) (fits : bs.length ≤ 80) :
      BodyWrites s .totp (writeResults (hotpCalc k c) (writeBin bs s), false)
  | verifyRejected : BodyWrites s .verify (s, false)
  | verify (bs : List Byte) (fits : bs.length ≤ 80) (m : Bool) : BodyWrites s .verify (writeBin bs s, m)
  | zero : BodyWrites s .zero ({ s with regs := Regs.reset, results := Results.reset, mem := [] }, false)

/-- DEC and DEC.S end with some bytes in BIN, or raise an error (40_base32.md R59). -/
theorem decBody_writeBin_or_error (strict : Bool) (s : State) :
    (∃ e, e ≠ .noError ∧ decBody strict s = .error e) ∨
    (∃ bs, bs.length ≤ 80 ∧ decBody strict s = .ok (writeBin bs s, false)) := by
  rcases decBody_cases strict s with ⟨_, e⟩ | ⟨_, _, _, e⟩ | ⟨bs, _, _, fits, e⟩
  · exact .inl ⟨_, by decide, e⟩
  · exact .inl ⟨_, by decide, e⟩
  · exact .inr ⟨bs, fits, e⟩

/-- Every command's pseudocode raises one of the error codes or ends as `BodyWrites` lists. -/
theorem bodyOf_cases (i : Instr) (s : State) :
    (∃ e, e ≠ .noError ∧ bodyOf i s = .error e) ∨ (∃ r, BodyWrites s i r ∧ bodyOf i s = .ok r) := by
  cases i with
  | enc =>
    rcases encBody_cases s with ⟨_, e⟩ | ⟨_, fits, e⟩
    · exact .inl ⟨_, by decide, e⟩
    · exact .inr ⟨_, .enc _ fits, e⟩
  | dec => exact (decBody_writeBin_or_error false s).imp id fun ⟨bs, fits, e⟩ => ⟨_, .dec bs fits, e⟩
  | decS => exact (decBody_writeBin_or_error true s).imp id fun ⟨bs, fits, e⟩ => ⟨_, .decS bs fits, e⟩
  | hotp =>
    rcases hotpBody_cases s with ⟨_, e⟩ | ⟨_, e⟩ | ⟨_, _, e⟩
    · exact .inl ⟨_, by decide, e⟩
    · exact .inl ⟨_, by decide, e⟩
    · exact .inr ⟨_, .hotp _ _, e⟩
  | totp =>
    rcases totpBody_cases s with ⟨_, e⟩ | ⟨_, _, e⟩ | ⟨_, _, fits, e⟩
    · exact .inl ⟨_, by decide, e⟩
    · exact .inl ⟨_, by decide, e⟩
    · exact .inr ⟨_, .totp _ _ _ fits, e⟩
  | verify =>
    rcases verifyBody_cases s with ⟨_, e⟩ | ⟨_, _, e⟩ | ⟨_, _, fits, e⟩
    · exact .inl ⟨_, by decide, e⟩
    · exact .inr ⟨_, .verifyRejected, e⟩
    · exact .inr ⟨_, .verify _ fits _, e⟩
  | zero => exact .inr ⟨_, .zero, rfl⟩

theorem bodyWrites_of_ok {i : Instr} {s : State} {r : State × Bool} (h : bodyOf i s = .ok r) : BodyWrites s i r := by
  rcases bodyOf_cases i s with ⟨e, _, he⟩ | ⟨r', hw, hr⟩
  · rw [he] at h; cases h
  · rw [hr] at h; cases h; exact hw

theorem errCode_ne_noError_of_error {i : Instr} {s : State} {e : ErrCode} (h : bodyOf i s = .error e) :
    e ≠ .noError := by
  rcases bodyOf_cases i s with ⟨e', hne, he⟩ | ⟨r, _, hr⟩
  · rw [he] at h; cases h; exact hne
  · rw [hr] at h; cases h

/-- All a command can do: complete with an error and write STATUS only, or complete without one and keep its
pseudocode's writes (60_exceptions.md R73, R74). -/
theorem exec_next {i : Instr} {s t : State} (h : exec i s = .next t) :
    (∃ e, e ≠ .noError ∧ t = complete e false s) ∨ (∃ r, bodyOf i s = .ok r ∧ t = complete .noError r.2 r.1) := by
  rw [exec_eq_finish] at h
  rcases finish_cases (bodyOf i) s with ⟨e, hb, hf⟩ | ⟨r, hb, hf⟩ <;> rw [hf] at h <;> cases h
  · exact .inl ⟨e, errCode_ne_noError_of_error hb, rfl⟩
  · exact .inr ⟨r, hb, rfl⟩

/-- All a completion of the latched word can do: an error, an illegal word's among them, or the writes of the command
whose word is latched. -/
theorem completeLatched_next {s t : State} (h : completeLatched s = .next t) :
    (∃ e, t = complete e false s) ∨
    (∃ i r, s.engine.cmdLatch = encode i ∧ bodyOf i s = .ok r ∧ t = complete .noError r.2 r.1) := by
  rcases completeLatched_cases s with ⟨i, hd, hc⟩ | ⟨_, _, hc⟩ <;> rw [hc] at h
  · rcases exec_next h with ⟨e, _, rfl⟩ | ⟨r, hb, rfl⟩
    · exact .inl ⟨e, rfl⟩
    · exact .inr ⟨i, r, eq_encode_of_decode hd, hb, rfl⟩
  · cases h
    exact .inl ⟨_, rfl⟩

/-- Only VERIFY can end with MATCH (42_totp.md R69). -/
theorem BodyWrites.eq_verify_of_matched {s : State} {i : Instr} {r : State × Bool} (h : BodyWrites s i r)
    (hm : r.2 = true) : i = .verify := by
  cases h with
  | verify => rfl
  | _ => cases hm

/-! ### The host and the engine's cycles -/

/-- All a host turn can do: move the host alone, or write once on the bus outside reset. -/
theorem hostTurn_next {s t : State} (h : hostTurn s = .next t) :
    (∃ p r d, t = { s with program := p, record := r, draws := d }) ∨
    (s.inReset = false ∧ ∃ p off v, t = busWrite off v { s with program := p }) := by
  rcases hostTurn_cases h with rfl | ⟨rest, rfl⟩ | ⟨op, rest, off, _, hr, rfl⟩
  · exact .inl ⟨_, _, _, rfl⟩
  · exact .inl ⟨_, _, _, rfl⟩
  · rcases hostAccess_cases op rest off s with ⟨v, d, e⟩ | ⟨v, e⟩ | e | e
    · exact .inl ⟨_, _, _, e⟩
    · exact .inr ⟨hr, rest, off, v, e⟩
    · exact .inl ⟨_, _, _, e⟩
    · exact .inl ⟨_, _, _, e⟩

theorem engineCycle_idle {s : State} (h : s.engine.phase = .idle) : engineCycle s = s := by
  simp [engineCycle, h]

theorem engineCycle_run {s : State} (h : s.engine.phase = .run) :
    engineCycle s =
      { s with engine := { s.engine with work := some (Config.freeWork s.draws) }, draws := s.draws + 1 } := by
  simp [engineCycle, h]

end Sys2Proof.Machine
end

section
/-! The invariant: it holds of every block at its reset values, and every agent's turn keeps it. -/

namespace Sys2Proof.Machine

theorem isWindowByte_txt {i : Nat} (hi : i < 128) : isWindowByte (0x100 + i) = true := by
  simp [isWindowByte]; omega

theorem isWindowByte_bin {i : Nat} (hi : i < 80) : isWindowByte (0x200 + i) = true := by
  simp [isWindowByte]; omega

theorem isWindowByte_digest {i : Nat} (hi : i < 20) : isWindowByte (0x040 + i) = true := by
  simp [isWindowByte]; omega

/-- A block with its reset values satisfies the invariant, in reset or out of it (R34). -/
theorem inv_of_blockAtReset {s : State} (h : blockAtReset s) : Inv s := by
  have hall := h
  obtain ⟨_, hres, hmem, hst, heng⟩ := h
  refine ⟨by simp [hmem], by simp [hmem], ?_, .inl ⟨hres, ?_⟩, fun _ => by rw [heng]; rfl, fun _ => hall⟩
  · simp [statusLegal, busy, hst, heng, Status.reset, Engine.reset]
  · rw [digestBytes, hmem]; rfl

section
variable {s : State}

/-- Reset is not asserted while a command runs: the engine would be idle. -/
theorem Inv.inReset_eq_false_of_run (h : Inv s) (hrun : s.engine.phase = .run) : s.inReset = false := by
  cases hr : s.inReset with
  | false => rfl
  | true =>
    obtain ⟨_, _, _, _, heng⟩ := h.reset hr
    rw [heng] at hrun; cases hrun

/-- The invariant speaks of the block and the reset input, not of the host, the schedule or the draws. -/
theorem inv_hostMoves (h : Inv s) (p : List HostOp) (r : List Word) (ts : List Turn) (d : Nat) :
    Inv { s with program := p, record := r, turns := ts, draws := d } :=
  ⟨h.memWf, h.memMapped, h.status, h.results, h.work, h.reset⟩

theorem inv_popTurn (h : Inv s) : Inv (popTurn s) := inv_hostMoves h s.program s.record s.turns.tail s.draws

theorem inv_assertReset (s : State) : Inv (assertReset s) := inv_of_blockAtReset ⟨rfl, rfl, rfl, rfl, rfl⟩

theorem inv_releaseReset (h : Inv s) : Inv (releaseReset s) := by
  unfold releaseReset
  split
  · exact inv_of_blockAtReset ⟨rfl, rfl, rfl, rfl, rfl⟩
  · exact h

theorem inv_engineCycle (h : Inv s) : Inv (engineCycle s) := by
  cases hp : s.engine.phase with
  | idle => rwa [engineCycle_idle hp]
  | run =>
    rw [engineCycle_run hp]
    refine ⟨h.memWf, h.memMapped, h.status, h.results, fun hi => ?_, fun hr => ?_⟩
    · rw [hp] at hi; cases hi
    · rw [h.inReset_eq_false_of_run hp] at hr; cases hr

/-! Outside reset the last clause of the invariant asks for nothing. -/

variable (h : Inv s) (hr : s.inReset = false)
include h hr

theorem inv_accept (w : Word) : Inv (accept w s) :=
  ⟨h.memWf, h.memMapped, by simp [statusLegal], h.results, (by intro hi; cases hi), by simp [hr]⟩

theorem inv_dropWrite : Inv (dropWrite s) :=
  ⟨h.memWf, h.memMapped, h.status, h.results, h.work, by simp [hr]⟩

theorem inv_writeRegs (regs : Regs) : Inv { s with regs := regs } :=
  ⟨h.memWf, h.memMapped, h.status, h.results, h.work, by simp [hr]⟩

/-- A completion keeps the invariant where MATCH comes without an error (R24). -/
theorem inv_complete {e : ErrCode} {m : Bool} (hm : m = true → e = .noError) : Inv (complete e m s) :=
  ⟨h.memWf, h.memMapped, by simpa [statusLegal, busy] using hm, h.results, fun _ => rfl, by simp [hr]⟩

/-- A store to bytes that exist above DIGEST keeps the invariant. -/
theorem inv_writeBytes {base : Nat} {bs : List Byte} (hw : ∀ i, i < bs.length → isWindowByte (base + i) = true)
    (hb : 0x054 ≤ base) : Inv { s with mem := Memory.writeBytes s.mem base bs } := by
  refine ⟨wf_writeBytes h.memWf base bs, mapped_writeBytes h.memMapped hw, h.status, ?_, h.work, by simp [hr]⟩
  have hd : digestBytes { s with mem := Memory.writeBytes s.mem base bs } = digestBytes s :=
    readBytes_writeBytes_disjoint s.mem bs (.inl (by simpa using hb))
  simpa only [resultsCoherent, hd] using h.results

theorem inv_writeTxt {bs : List Byte} (fits : bs.length ≤ 128) : Inv (writeTxt bs s) :=
  inv_writeRegs (inv_writeBytes h hr (fun _ hi => isWindowByte_txt (by omega)) (by decide)) hr _

theorem inv_writeBin {bs : List Byte} (fits : bs.length ≤ 80) : Inv (writeBin bs s) :=
  inv_writeRegs (inv_writeBytes h hr (fun _ hi => isWindowByte_bin (by omega)) (by decide)) hr _

/-- Result registers that follow from the digest stored beside them belong together (R26 to R29). -/
theorem inv_writeResults {d : List Byte} (hd : d.length = 20) : Inv (writeResults (ofDigest d) s) := by
  refine ⟨wf_writeBytes h.memWf digestBase d,
    mapped_writeBytes h.memMapped fun i hi => isWindowByte_digest (by rw [ofDigest_digest] at hi; omega),
    h.status, .inr ?_, h.work, by simp [hr]⟩
  have hback : digestBytes (writeResults (ofDigest d) s) = d := by
    have := readBytes_writeBytes h.memWf digestBase d
    rwa [hd] at this
  rw [hback, writeResults_results]

theorem inv_zeroed : Inv { s with regs := Regs.reset, results := Results.reset, mem := [] } :=
  ⟨wf_nil, mapped_nil, h.status, .inl ⟨rfl, rfl⟩, h.work, by simp [hr]⟩

/-- Every command's pseudocode keeps the invariant before its completion. -/
theorem inv_bodyWrites {i : Instr} {r : State × Bool} (hw : BodyWrites s i r) : Inv r.1 := by
  cases hw with
  | enc bs fits => exact inv_writeTxt h hr fits
  | dec bs fits => exact inv_writeBin h hr fits
  | decS bs fits => exact inv_writeBin h hr fits
  | hotp k c => exact inv_writeResults h hr (length_hmacSha1 k (be64bytes c))
  | totp k c bs fits => exact inv_writeResults (inv_writeBin h hr fits) hr (length_hmacSha1 k (be64bytes c))
  | verifyRejected => exact h
  | verify bs fits => exact inv_writeBin h hr fits
  | zero => exact inv_zeroed h hr

theorem inv_idleWrite (off : Offset) (v : Word) : Inv (idleWrite (targetOf off) v s) := by
  rcases idleWrite_cases off v s with ⟨_, e⟩ | ⟨regs, e⟩ | ⟨k, hk, e⟩ | ⟨k, hk, e⟩ <;> rw [e]
  · exact inv_accept h hr v
  · exact inv_writeRegs h hr regs
  · refine inv_writeBytes h hr (fun i hi => ?_) (by omega)
    rw [Nat.add_assoc]
    exact isWindowByte_txt (by simp at hi; omega)
  · refine inv_writeBytes h hr (fun i hi => ?_) (by omega)
    rw [Nat.add_assoc]
    exact isWindowByte_bin (by simp at hi; omega)

theorem inv_busWrite (off : Offset) (v : Word) : Inv (busWrite off v s) := by
  cases hp : s.engine.phase with
  | idle => rw [busWrite_idle hp]; exact inv_idleWrite h hr off v
  | run => rw [busWrite_busy hp]; exact inv_dropWrite h hr

end

theorem inv_hostTurn {s t : State} (h : Inv s) (ht : hostTurn s = .next t) : Inv t := by
  rcases hostTurn_next ht with ⟨p, r, d, rfl⟩ | ⟨hr, p, off, v, rfl⟩
  · exact inv_hostMoves h p r s.turns d
  · exact inv_busWrite (inv_hostMoves h p s.record s.turns s.draws) hr off v

theorem inv_completeLatched {s t : State} (h : Inv s) (hrun : s.engine.phase = .run)
    (ht : completeLatched s = .next t) : Inv t := by
  have hr := h.inReset_eq_false_of_run hrun
  rcases completeLatched_next ht with ⟨e, rfl⟩ | ⟨i, r, _, hb, rfl⟩
  · exact inv_complete h hr (by simp)
  · obtain ⟨_, _, hr', _⟩ := body_keeps hb
    exact inv_complete (inv_bodyWrites h hr (bodyWrites_of_ok hb)) (hr'.trans hr) (fun _ => rfl)

/-- Settles O56, by the agent whose turn the step is. -/
theorem everyStepKeepsTheInvariant : Obligations.EveryStepKeepsTheInvariant := by
  intro s t h hst
  have hp := inv_popTurn h
  rcases step_cases hst with ⟨_, ht⟩ | ⟨_, rfl⟩ | ⟨_, _, rfl⟩ | ⟨_, hrun, ht⟩ | ⟨_, rfl⟩ | ⟨_, rfl⟩
  · exact inv_hostTurn hp ht
  · exact inv_engineCycle hp
  · exact hp
  · exact inv_completeLatched hp hrun ht
  · exact inv_assertReset (popTurn s)
  · exact inv_releaseReset hp

/-- Settles O55: the reset state's block has its reset values. -/
theorem resetSatisfiesTheInvariant : Obligations.ResetSatisfiesTheInvariant :=
  inv_of_blockAtReset ⟨rfl, rfl, rfl, rfl, rfl⟩

end Sys2Proof.Machine
end

section
/-! Every command completes, and no command reads a working value: R24 and R32. -/

namespace Sys2Proof.Machine

open Sys2Proof.Spec

theorem exec_isNext (i : Instr) (s : State) : ∃ t, exec i s = .next t := by
  rw [exec_eq_finish]; exact finish_isNext (bodyOf i) s

/-- Settles O6: a completion sets STATUS and the engine, and no pseudocode touches the rest. -/
theorem everyCommandCompletes : Obligations.EveryCommandCompletes := by
  intro i s
  obtain ⟨t, ht⟩ := exec_isNext i s
  refine ⟨t, ht, ?_⟩
  rcases exec_next ht with ⟨e, _, rfl⟩ | ⟨r, hb, rfl⟩
  · exact ⟨rfl, rfl, fun hm => (Bool.false_ne_true hm).elim, rfl, rfl, rfl, rfl, rfl⟩
  · obtain ⟨hst, heng, hr, hp, hrec, hts, hd⟩ := body_keeps hb
    refine ⟨?_, ?_, fun hm => ⟨(bodyWrites_of_ok hb).eq_verify_of_matched hm, rfl⟩, hr, hp, hrec, hts, hd⟩
    · rw [complete_engine, heng, engineAfter]
    · rw [complete_status, hst, statusAfter]

/-- `s` with other working values. -/
def withWork (w : Option Work) (s : State) : State := { s with engine := { s.engine with work := w } }

@[simp] theorem binInput_withWork (w : Option Work) (s : State) : binInput (withWork w s) = binInput s := rfl

@[simp] theorem cntValue_withWork (w : Option Work) (s : State) : cntValue (withWork w s) = cntValue s := rfl

@[simp] theorem secretOf_withWork (w : Option Work) (s : State) : secretOf (withWork w s) = secretOf s := rfl

@[simp] theorem timeValue_withWork (w : Option Work) (s : State) : timeValue (withWork w s) = timeValue s := rfl

@[simp] theorem writeBin_withWork (bs : List Byte) (w : Option Work) (s : State) :
    writeBin bs (withWork w s) = withWork w (writeBin bs s) := rfl

@[simp] theorem writeResults_withWork (r : HotpResult) (w : Option Work) (s : State) :
    writeResults r (withWork w s) = withWork w (writeResults r s) := rfl

theorem decBody_withWork (strict : Bool) (w : Option Work) (s : State) :
    decBody strict (withWork w s) = (decBody strict s).map fun r => (withWork w r.1, r.2) := by
  rw [decBody, decBody, apply_ite (Except.map _)]
  refine if_congr Iff.rfl rfl ?_
  rw [show txtInput (withWork w s) = txtInput s from rfl]
  cases base32Decode (txtInput s) strict <;> rfl

/-- No pseudocode reads a working value: it carries them along, through each of its checks. -/
theorem bodyOf_withWork (i : Instr) (w : Option Work) (s : State) :
    bodyOf i (withWork w s) = (bodyOf i s).map fun r => (withWork w r.1, r.2) := by
  cases i with
  | enc => rw [bodyOf, encBody, encBody, apply_ite (Except.map _)]; rfl
  | dec => exact decBody_withWork false w s
  | decS => exact decBody_withWork true w s
  | hotp =>
    simp only [bodyOf, hotpBody, apply_ite (Except.map _), binInput_withWork, cntValue_withWork, writeResults_withWork]
    rfl
  | totp =>
    simp only [bodyOf, totpBody, apply_ite (Except.map _), secretOf_withWork, timeValue_withWork, writeBin_withWork,
      writeResults_withWork]
    rfl
  | verify =>
    rw [bodyOf, verifyBody, verifyBody, apply_ite (Except.map _), apply_ite (Except.map _), apply_ite (Except.map _)]
    rfl
  | zero => rfl

/-- The completion drops what the pseudocode carried along (R24). -/
theorem exec_withWork (i : Instr) (w : Option Work) (s : State) : exec i (withWork w s) = exec i s := by
  rw [exec_eq_finish, exec_eq_finish, finish, finish, bodyOf_withWork]
  cases bodyOf i s <;> rfl

/-- Settles O13: the pseudocode carries the working values along and the completion drops them. -/
theorem noCommandReadsAWorkingValue : Obligations.NoCommandReadsAWorkingValue := by
  intro i s w
  obtain ⟨t, ht, heng, _⟩ := everyCommandCompletes i s
  exact ⟨exec_withWork i w s, t, ht, by rw [heng, engineAfter]⟩

end Sys2Proof.Machine
end

section
/-! Who writes what (10_state.md R35): the host, a reset, or the completion of a command whose pseudocode does. -/

namespace Sys2Proof.Machine

open Sys2Proof.Spec

/-- All a step can do to the block's registers and buffers, by whose turn it is. -/
theorem step_writers {s t : State} (h : step s = .next t) :
    (nextTurn s = .host ∧ hostTurn (popTurn s) = .next t) ∨
    resetTurn s ∨
    (t.regs = s.regs ∧ t.results = s.results ∧ t.mem = s.mem) ∨
    (∃ i r, completes s i ∧ BodyWrites (popTurn s) i r ∧ t = complete .noError r.2 r.1) := by
  rcases step_cases h with ⟨ht, hh⟩ | ⟨_, rfl⟩ | ⟨_, _, rfl⟩ | ⟨ht, hrun, hc⟩ | ⟨ht, _⟩ | ⟨ht, _⟩
  · exact .inl ⟨ht, hh⟩
  · refine .inr (.inr (.inl ?_))
    cases hp : s.engine.phase with
    | idle => rw [engineCycle_idle (s := popTurn s) hp]; exact ⟨rfl, rfl, rfl⟩
    | run => rw [engineCycle_run (s := popTurn s) hp]; exact ⟨rfl, rfl, rfl⟩
  · exact .inr (.inr (.inl ⟨rfl, rfl, rfl⟩))
  · rcases completeLatched_next hc with ⟨e, rfl⟩ | ⟨i, r, hw, hb, rfl⟩
    · exact .inr (.inr (.inl ⟨rfl, rfl, rfl⟩))
    · exact .inr (.inr (.inr ⟨i, r, ⟨ht, hrun, hw⟩, bodyWrites_of_ok hb, rfl⟩))
  · exact .inr (.inl (.inl ht))
  · exact .inr (.inl (.inr ht))

/-! ### The named byte sequences are reads of the windows -/

theorem digest_eq_readBytes (s : State) : digest s = Memory.readBytes s.mem 0x040 20 := rfl

theorem txtBytes_eq_readBytes (s : State) (n : Nat) : txtBytes s n = Memory.readBytes s.mem 0x100 n := rfl

theorem binBytes_eq_readBytes (s : State) (n : Nat) : binBytes s n = Memory.readBytes s.mem 0x200 n := rfl

/-! ### The host writes no result -/

theorem idleWrite_keeps_results (off : Offset) (v : Word) (s : State) :
    (idleWrite (targetOf off) v s).results = s.results ∧ digest (idleWrite (targetOf off) v s) = digest s := by
  rcases idleWrite_cases off v s with ⟨_, e⟩ | ⟨_, e⟩ | ⟨k, _, e⟩ | ⟨k, _, e⟩ <;> rw [e]
  · exact ⟨rfl, rfl⟩
  · exact ⟨rfl, rfl⟩
  · exact ⟨rfl, readBytes_writeBytes_disjoint s.mem _ (.inl (by omega))⟩
  · exact ⟨rfl, readBytes_writeBytes_disjoint s.mem _ (.inl (by omega))⟩

theorem hostTurn_keeps_results {s t : State} (h : hostTurn s = .next t) :
    t.results = s.results ∧ digest t = digest s := by
  rcases hostTurn_next h with ⟨p, r, d, rfl⟩ | ⟨_, p, off, v, rfl⟩
  · exact ⟨rfl, rfl⟩
  · cases hp : s.engine.phase with
    | idle =>
      rw [busWrite_idle (s := { s with program := p }) hp]
      exact idleWrite_keeps_results off v { s with program := p }
    | run => rw [busWrite_busy (s := { s with program := p }) hp]; exact ⟨rfl, rfl⟩

/-! ### Each store stays in its own window -/

theorem digest_writeTxt (bs : List Byte) (s : State) : digest (writeTxt bs s) = digest s :=
  readBytes_writeBytes_disjoint s.mem bs (.inl (by decide))

theorem digest_writeBin (bs : List Byte) (s : State) : digest (writeBin bs s) = digest s :=
  readBytes_writeBytes_disjoint s.mem bs (.inl (by decide))

theorem txtBytes_writeBin (bs : List Byte) (s : State) : txtBytes (writeBin bs s) 128 = txtBytes s 128 :=
  readBytes_writeBytes_disjoint s.mem bs (.inl (by decide))

theorem binBytes_writeTxt {bs : List Byte} (fits : bs.length ≤ 128) (s : State) (n : Nat) :
    binBytes (writeTxt bs s) n = binBytes s n :=
  readBytes_writeBytes_disjoint s.mem bs (.inr (by rw [txtBase]; omega))

/-- DIGEST ends below TXT. -/
theorem txtBytes_writeResults {r : HotpResult} (hr : r.digest.length = 20) (s : State) (n : Nat) :
    txtBytes (writeResults r s) n = txtBytes s n :=
  readBytes_writeBytes_disjoint s.mem r.digest (.inr (by rw [hr]; decide))

/-- DIGEST ends below BIN. -/
theorem binBytes_writeResults {r : HotpResult} (hr : r.digest.length = 20) (s : State) (n : Nat) :
    binBytes (writeResults r s) n = binBytes s n :=
  readBytes_writeBytes_disjoint s.mem r.digest (.inr (by rw [hr]; decide))

/-! ### The commands -/

section
variable {s : State} {i : Instr} {r : State × Bool}

theorem BodyWrites.keeps_inputs_or_zero (h : BodyWrites s i r) :
    i = .zero ∨ r.1.regs = { s.regs with binLen := r.1.regs.binLen, txtLen := r.1.regs.txtLen } := by
  cases h with
  | zero => exact .inl rfl
  | _ => exact .inr rfl

theorem BodyWrites.keeps_results_or_writer (h : BodyWrites s i r) :
    (r.1.results = s.results ∧ digest r.1 = digest s) ∨ i = .hotp ∨ i = .totp ∨ i = .zero := by
  cases h with
  | enc bs => exact .inl ⟨rfl, digest_writeTxt bs s⟩
  | dec bs | decS bs | verify bs => exact .inl ⟨rfl, digest_writeBin bs s⟩
  | verifyRejected => exact .inl ⟨rfl, rfl⟩
  | hotp | totp | zero => simp

theorem BodyWrites.keeps_txt_or_writer (h : BodyWrites s i r) :
    txtBytes r.1 128 = txtBytes s 128 ∨ i = .enc ∨ i = .zero := by
  cases h with
  | dec bs | decS bs | verify bs => exact .inl (txtBytes_writeBin bs s)
  | hotp k c => exact .inl (txtBytes_writeResults (length_hmacSha1 k _) s 128)
  | totp k c bs =>
    exact .inl ((txtBytes_writeResults (length_hmacSha1 k _) (writeBin bs s) 128).trans (txtBytes_writeBin bs s))
  | verifyRejected => exact .inl rfl
  | enc | zero => simp

theorem BodyWrites.keeps_bin_or_writer (h : BodyWrites s i r) :
    binBytes r.1 80 = binBytes s 80 ∨ i = .dec ∨ i = .decS ∨ i = .totp ∨ i = .verify ∨ i = .zero := by
  cases h with
  | enc bs fits => exact .inl (binBytes_writeTxt fits s 80)
  | hotp k c => exact .inl (binBytes_writeResults (length_hmacSha1 k _) s 80)
  | dec | decS | totp | verifyRejected | verify | zero => simp

end

/-! ### The settled statements -/

/-- Settles O51: of the commands only ZERO writes CNT, TIME or the candidate. -/
theorem onlyHostZeroAndResetWriteTheInputs : Obligations.OnlyHostZeroAndResetWriteTheInputs := by
  intro s t h hne
  rcases step_writers h with ⟨ht, _⟩ | hr | ⟨hregs, _, _⟩ | ⟨i, r, hc, hw, rfl⟩
  · exact .inl ht
  · exact .inr (.inl hr)
  · rw [hregs] at hne
    exact absurd ⟨rfl, rfl, rfl, rfl, rfl, rfl, rfl⟩ hne
  · rcases hw.keeps_inputs_or_zero with rfl | hregs
    · exact .inr (.inr hc)
    · rw [complete_regs, hregs] at hne
      exact absurd ⟨rfl, rfl, rfl, rfl, rfl, rfl, rfl⟩ hne

/-- Settles O52: of the commands only HOTP, TOTP and ZERO write a result, and no host access does. -/
theorem onlyHotpTotpZeroAndResetWriteResults : Obligations.OnlyHotpTotpZeroAndResetWriteResults := by
  intro s t h hne
  rcases step_writers h with ⟨_, hh⟩ | hr | ⟨_, hres, hmem⟩ | ⟨i, r, hc, hw, rfl⟩
  · exact absurd (hostTurn_keeps_results hh) hne
  · exact .inl hr
  · exact absurd ⟨hres, by rw [digest_eq_readBytes, hmem, digest_eq_readBytes]⟩ hne
  · rcases hw.keeps_results_or_writer with hk | rfl | rfl | rfl
    · exact absurd hk hne
    all_goals simp [hc]

/-- Settles O53: the pseudocode of each command stores in its own window only. -/
theorem onlyTheNamedCommandsWriteTheBuffers : Obligations.OnlyTheNamedCommandsWriteTheBuffers := by
  intro s t h
  rcases step_writers h with ⟨ht, _⟩ | hr | ⟨_, _, hmem⟩ | ⟨i, r, hc, hw, rfl⟩
  · exact ⟨fun _ => .inl ht, fun _ => .inl ht⟩
  · exact ⟨fun _ => .inr (.inl hr), fun _ => .inr (.inl hr)⟩
  · refine ⟨fun hne => absurd ?_ hne, fun hne => absurd ?_ hne⟩
    · rw [txtBytes_eq_readBytes, hmem, txtBytes_eq_readBytes]
    · rw [binBytes_eq_readBytes, hmem, binBytes_eq_readBytes]
  · constructor
    · intro hne
      rcases hw.keeps_txt_or_writer with hk | rfl | rfl
      · exact absurd hk hne
      all_goals simp [hc]
    · intro hne
      rcases hw.keeps_bin_or_writer with hk | rfl | rfl | rfl | rfl | rfl
      · exact absurd hk hne
      all_goals simp [hc]

end Sys2Proof.Machine
end

section
/-! Canonical memories: the list is determined by what it reads as (log entry 9). -/

namespace Sys2Proof.Machine

/-- A byte that reads other than 0x00 stands at or above the least offset its memory may list. -/
theorem le_of_read_ne_zero {m : Memory} {lo a : Nat} (h : Memory.wfFrom lo m = true) (hr : Memory.read m a ≠ 0) :
    lo ≤ a := Nat.not_lt.1 fun ha => hr (read_eq_zero_of_lt h ha)

theorem wfFrom_cons {m : Memory} {lo k : Nat} {b : Byte} :
    Memory.wfFrom lo ((k, b) :: m) = true ↔ lo ≤ k ∧ b ≠ 0 ∧ Memory.wfFrom (k + 1) m = true := by
  simp [Memory.wfFrom, and_assoc]

@[simp] theorem read_cons_self (k : Nat) (b : Byte) (m : Memory) : Memory.read ((k, b) :: m) k = b := by
  simp [Memory.read]

theorem read_cons_of_ne {k a : Nat} (b : Byte) (m : Memory) (h : a ≠ k) :
    Memory.read ((k, b) :: m) a = Memory.read m a := by
  simp [Memory.read, h]

/-- Canonical memories that read alike list the same first byte, and so the same bytes. -/
theorem eq_of_read_eq {m m' : Memory} {lo lo' : Nat} (h : Memory.wfFrom lo m = true) (h' : Memory.wfFrom lo' m' = true)
    (hread : ∀ a, Memory.read m a = Memory.read m' a) : m = m' := by
  induction m generalizing m' lo lo' with
  | nil =>
    cases m' with
    | nil => rfl
    | cons c' m' =>
      obtain ⟨k', b'⟩ := c'
      obtain ⟨_, hb', _⟩ := wfFrom_cons.1 h'
      exact absurd (by simpa using (hread k').symm) hb'
  | cons c m ih =>
    obtain ⟨k, b⟩ := c
    obtain ⟨_, hb, hm⟩ := wfFrom_cons.1 h
    have hk : Memory.read m' k = b := by simpa using (hread k).symm
    cases m' with
    | nil => exact absurd hk.symm hb
    | cons c' m' =>
      obtain ⟨k', b'⟩ := c'
      obtain ⟨_, hb', hm'⟩ := wfFrom_cons.1 h'
      have hk' : Memory.read ((k, b) :: m) k' = b' := by simpa using hread k'
      have le : k' ≤ k := le_of_read_ne_zero (wfFrom_cons.2 ⟨Nat.le_refl k', hb', hm'⟩) (hk ▸ hb)
      have ge : k ≤ k' := le_of_read_ne_zero (wfFrom_cons.2 ⟨Nat.le_refl k, hb, hm⟩) (hk' ▸ hb')
      obtain rfl : k = k' := Nat.le_antisymm ge le
      obtain rfl : b = b' := by simpa using hk'
      rw [ih hm hm' fun a => ?_]
      by_cases ha : a = k
      · rw [ha, read_eq_zero_of_lt hm (Nat.lt_succ_self k), read_eq_zero_of_lt hm' (Nat.lt_succ_self k)]
      · simpa [read_cons_of_ne _ _ ha] using hread a

/-- Settles O54, by induction on the list: the first listed bytes are the same, and so are the rests. -/
theorem canonicalMemoryIsDeterminedByItsBytes : Obligations.CanonicalMemoryIsDeterminedByItsBytes :=
  fun _ _ h h' hread => eq_of_read_eq h h' hread

end Sys2Proof.Machine
end

section
/-! The result registers of a HOTPCALC hold one code and its digits: R26, R27 and R28. -/

namespace Sys2Proof.Machine

/-- `binCode` is a 31-bit value (41_hotp.md R63). -/
theorem getLsbD_truncate_31 (d : List Byte) : (truncate d).getLsbD 31 = false := by
  rw [truncate, BitVec.getLsbD_and]
  simp

/-- A character of a code is the ASCII form of its digit (R63). -/
theorem toNat_codeChar (code i : Nat) : (codeChar code i).toNat = 0x30 + code / 10 ^ (5 - i) % 10 := by
  have : code / 10 ^ (5 - i) % 10 < 10 := Nat.mod_lt _ (by decide)
  rw [codeChar, BitVec.toNat_ofNat, Nat.mod_eq_of_lt (by omega)]

theorem getD_asc_ofDigest (d : List Byte) {j : Nat} (hj : j < 6) :
    (ofDigest d).asc.getD j 0 = codeChar (ofDigest d).code j := by
  simp [ofDigest, List.getD_eq_getElem?_getD, hj]

/-- CODE is BINCODE's remainder: nothing is lost in its 32 bits. -/
theorem toNat_code_resultRegs (d : List Byte) :
    (resultRegs (ofDigest d)).code.toNat = (resultRegs (ofDigest d)).binCode.toNat % 1000000 := by
  have : (truncate d).toNat % 1000000 < 1000000 := Nat.mod_lt _ (by decide)
  simp only [resultRegs, ofDigest, Config.codeModulus, BitVec.toNat_ofNat]
  omega

theorem code_ofDigest (d : List Byte) : (ofDigest d).code = (resultRegs (ofDigest d)).code.toNat := by
  rw [toNat_code_resultRegs]; rfl

theorem toNat_asc_ofDigest (d : List Byte) {j : Nat} (hj : j < 6) :
    ((ofDigest d).asc.getD j 0).toNat = 0x30 + (resultRegs (ofDigest d)).code.toNat / 10 ^ (5 - j) % 10 := by
  rw [getD_asc_ofDigest d hj, toNat_codeChar, code_ofDigest]

/-- CODE_ASC_LO holds characters 0 to 3, character 0 in the low lane (R28). -/
theorem lane_codeAscLo (d : List Byte) {j : Nat} (hj : j < 4) :
    lane (resultRegs (ofDigest d)).codeAscLo j = (ofDigest d).asc.getD j 0 := by
  obtain ⟨h0, h1, h2, h3⟩ := lane_ofLanes ((ofDigest d).asc.getD 0 0) ((ofDigest d).asc.getD 1 0)
    ((ofDigest d).asc.getD 2 0) ((ofDigest d).asc.getD 3 0)
  match j, hj with
  | 0, _ => exact h0
  | 1, _ => exact h1
  | 2, _ => exact h2
  | 3, _ => exact h3

/-- CODE_ASC_HI holds characters 4 and 5 (R28). -/
theorem lane_codeAscHi (d : List Byte) {j : Nat} (h4 : 4 ≤ j) (hj : j < 6) :
    lane (resultRegs (ofDigest d)).codeAscHi (j - 4) = (ofDigest d).asc.getD j 0 := by
  obtain ⟨h0, h1, _, _⟩ := lane_ofLanes ((ofDigest d).asc.getD 4 0) ((ofDigest d).asc.getD 5 0) 0 0
  match j, h4, hj with
  | 4, _, _ => exact h0
  | 5, _, _ => exact h1

/-- The upper half of a word whose two high lanes are 0x00. -/
theorem upperHalf_ofLanes (b0 b1 : Byte) : (ofLanes b0 b1 0 0).extractLsb' 16 16 = 0 := by
  ext i hi
  rw [ofLanes, BitVec.getElem_extractLsb', BitVec.getLsbD_append, BitVec.getLsbD_append, if_neg (by omega),
    if_neg (by omega)]
  simp

/-- HOTP and TOTP without an error fill the result registers from one digest (R64, 42_totp.md R66). -/
theorem results_of_hotp_or_totp {i : Instr} {s t : State} (hi : i = .hotp ∨ i = .totp) (h : exec i s = .next t)
    (he : t.status.err = .noError) : ∃ d, t.results = resultRegs (ofDigest d) := by
  rcases exec_next h with ⟨e, hne, rfl⟩ | ⟨r, hb, rfl⟩
  · exact absurd he hne
  · rcases hi with rfl | rfl <;> cases bodyWrites_of_ok hb <;> exact ⟨_, rfl⟩

/-- Settles O40: the registers follow from one digest, and each lane is a digit of the code. -/
theorem resultRegistersHoldOneCode : Obligations.ResultRegistersHoldOneCode := by
  intro i s t hi h he
  obtain ⟨d, hd⟩ := results_of_hotp_or_totp hi h he
  rw [hd]
  refine ⟨getLsbD_truncate_31 d, toNat_code_resultRegs d, fun j hj => ?_, fun j h4 hj => ?_, upperHalf_ofLanes _ _⟩
  · rw [← toNat_asc_ofDigest d (by omega), ← lane_codeAscLo d hj, lane]
  · rw [← toNat_asc_ofDigest d hj, ← lane_codeAscHi d h4 hj, lane]

end Sys2Proof.Machine
end

section
/-! The command protocol and the bus, one turn or one access at a time. -/

namespace Sys2Proof.Machine

open Sys2Proof.Spec

theorem completeLatched_of_decode {s : State} {i : Instr} (h : decode s.engine.cmdLatch = .ok i) :
    completeLatched s = exec i s := by
  rcases completeLatched_cases s with ⟨j, hj, hc⟩ | ⟨e, he, _⟩
  · rw [h] at hj; cases hj; exact hc
  · rw [h] at he; cases he

/-- An illegal word completes with ILLEGAL_CMD and changes STATUS and the end of its run only (43_control.md R72). -/
theorem completeLatched_of_illegal {s : State} (h : ∀ i, s.engine.cmdLatch ≠ encode i) :
    completeLatched s = .next (errored s .illegalCmd) := by
  rcases completeLatched_cases s with ⟨i, hi, _⟩ | ⟨_, _, hc⟩
  · exact absurd (eq_encode_of_decode hi) (h i)
  · exact hc

/-- Word 0 of the map is CMD (10_state.md R17). -/
theorem targetOf_eq_cmd {off : Offset} (h : off.toNat / 4 = 0) : targetOf off = .reg .cmd := by
  rw [targetOf, h]; rfl

/-- Settles O5: an idle write to CMD is `accept`, a busy write sets LOST only, and no command decodes from an illegal
word. -/
theorem cmdWriteIsAcceptedWhateverItsValue : Obligations.CmdWriteIsAcceptedWhateverItsValue := by
  refine ⟨fun s off w hidle hoff => ?_, fun s off w hrun => ?_, fun s hrun hill => ?_⟩
  · rw [busWrite_idle hidle, targetOf_eq_cmd hoff]; rfl
  · rw [busWrite_busy hrun]; exact ⟨rfl, rfl, rfl⟩
  · rw [engineComplete_run hrun, completeLatched_of_illegal hill]

/-- Settles O7: a busy write is `dropWrite`, whatever its offset. -/
theorem writeWhileBusyIsDroppedAndSetsLost : Obligations.WriteWhileBusyIsDroppedAndSetsLost :=
  fun _ off v hrun => busWrite_busy hrun off v

/-- A completion turn of a running legal command is its `exec`. -/
theorem step_of_complete {s : State} {i : Instr} (ht : nextTurn s = .complete) (hrun : s.engine.phase = .run)
    (hd : decode s.engine.cmdLatch = .ok i) : step s = exec i (popTurn s) := by
  rw [step, ht, takeTurn, engineComplete_run (s := popTurn s) hrun, completeLatched_of_decode (s := popTurn s) hd]

/-- Settles O11: the word that `withFetchWord` places is latched, and its completion comes next. -/
theorem stepRunsTheLatchedCommand : Obligations.StepRunsTheLatchedCommand := by
  refine ⟨fun s i ht hrun hd => step_of_complete ht hrun hd, fun s i => ?_⟩
  have hw : BitVec.ofNat 32 ((encode i).toNat % 2 ^ 32) = encode i := by
    rw [Nat.mod_eq_of_lt (encode i).isLt, BitVec.ofNat_toNat, BitVec.setWidth_eq]
  have hd : decode (s.withFetchWord 32 (encode i).toNat).engine.cmdLatch = .ok i := by
    rw [State.withFetchWord, hw]; exact decode_encode i
  rw [step_of_complete (nextTurn_cons rfl) rfl hd, State.withFetchWord, hw]
  rfl

/-- Settles O12: a cycle of a running command draws its working values, and an idle engine does nothing. -/
theorem cyclesMoveOnlyWorkingValues : Obligations.CyclesMoveOnlyWorkingValues := by
  refine ⟨fun s rest ht hrun => ?_, fun s rest ht hidle => ?_⟩
  · rw [step_cons ht, takeTurn, engineCycle_run (s := { s with turns := rest }) hrun]
  · rcases ht with ht | ht <;> rw [step_cons ht, takeTurn]
    · rw [engineCycle_idle (s := { s with turns := rest }) hidle]
    · rw [engineComplete_idle (s := { s with turns := rest }) hidle]

/-- The window words that no write changes: the RO registers and the reserved offsets (10_state.md R33, 20_memory.md
R37, R39). -/
def Target.ignoresWrites : Target → Bool
  | .reg .status | .reg .binCode | .reg .code | .reg .codeAscLo | .reg .codeAscHi => true
  | .reg .digest0 | .reg .digest1 | .reg .digest2 | .reg .digest3 | .reg .digest4 => true
  | .reserved => true
  | _ => false

theorem idleWrite_of_ignoresWrites {t : Target} (h : t.ignoresWrites = true) (v : Word) (s : State) :
    idleWrite t v s = s := by
  cases t with
  | reg r =>
    cases r with
    | cmd | binLen | txtLen | cntLo | cntHi | timeLo | timeHi | candLo | candHi | candLen => cases h
    | _ => rfl
  | txt k => cases h
  | bin k => cases h
  | reserved => rfl

/-- STATUS is word 1 of the map, and the result registers are words 12 to 20 (R17). -/
theorem ignoresWrites_readOnlyWord {n : Nat} (h : n = 1 ∨ 12 ≤ n ∧ n ≤ 20) :
    (targetOfWord n).ignoresWrites = true := by
  have key : ∀ m : Fin 21, m.val = 1 ∨ 12 ≤ m.val → (mapTable.getD m .reserved).ignoresWrites = true := by decide
  rw [targetOfWord_table (by omega)]
  exact key ⟨n, by omega⟩ (by simp; omega)

/-- Settles O21: those words are STATUS and the result registers, which `idleWrite` leaves alone. -/
theorem readOnlyRegistersIgnoreWrites : Obligations.ReadOnlyRegistersIgnoreWrites := by
  intro s off v hidle hoff
  rw [busWrite_idle hidle]
  exact idleWrite_of_ignoresWrites (ignoresWrites_readOnlyWord hoff) v s

/-- STATUS as one bit after another below ERR (R18). -/
theorem statusWord_eq_concat (s : State) :
    statusWord s = ((((0#24 ++ errBits s.status.err).concat s.status.matched).concat s.status.lost).concat
      s.status.done).concat (busy s) := rfl

/-- The four flags make up the low nibble, so the rest of STATUS is ERR (R18). -/
theorem toNat_statusWord_div_16 (s : State) : (statusWord s).toNat / 16 = (errBits s.status.err).toNat := by
  have hm := Bool.toNat_lt s.status.matched
  have hl := Bool.toNat_lt s.status.lost
  have hd := Bool.toNat_lt s.status.done
  have hb := Bool.toNat_lt (busy s)
  have he : (0#24 ++ errBits s.status.err).toNat = (errBits s.status.err).toNat := by
    rw [BitVec.toNat_append]; simp
  rw [statusWord_eq_concat]
  simp only [BitVec.toNat_concat, he]
  omega

theorem busy_eq_decide (s : State) : busy s = decide (s.engine.phase = .run) := by
  rw [Bool.eq_iff_iff, busy_iff, decide_eq_true_iff]

/-- Settles O25: STATUS is its four flag bits below the ERR code. -/
theorem statusFieldsStandWhereTheSpecPutsThem : Obligations.StatusFieldsStandWhereTheSpecPutsThem := by
  intro s
  refine ⟨?_, ?_, ?_, ?_, ?_⟩
  · rw [statusWord_eq_concat, BitVec.getLsbD_concat_zero, busy_eq_decide]
  · simp [statusWord_eq_concat]
  · simp [statusWord_eq_concat]
  · simp [statusWord_eq_concat]
  · rw [toNat_statusWord_div_16]
    cases s.status.err <;> rfl

@[simp] theorem readWord_nil (a : Nat) : Memory.readWord [] a = 0 := by
  simp only [Memory.readWord, read_nil]
  decide

theorem idleRead_reset (t : Target) : idleRead t State.reset = 0 := by
  cases t with
  | reg r => cases r <;> rfl
  | txt k => exact readWord_nil _
  | bin k => exact readWord_nil _
  | reserved => rfl

/-- Settles O49: no byte is listed, every register holds 0, and an idle read has no effect. -/
theorem resetReadsZeroEverywhere : Obligations.ResetReadsZeroEverywhere := by
  refine ⟨fun off => ?_, fun _ => rfl, rfl, rfl⟩
  rw [busRead_idle rfl, idleRead_reset]

end Sys2Proof.Machine
end

section
/-! The register map word by word, and what an access to each of its words reads and writes. -/

namespace Sys2Proof.Machine

/-! ### The map -/

/-- Window word `n` is a word of TXT or BIN (10_state.md R17). -/
def IsBufferWord (n : Nat) : Prop := 64 ≤ n ∧ n < 96 ∨ 128 ≤ n ∧ n < 148

/-- Every word of the map is a buffer word, a register at its offset, or reserved (R17, 20_memory.md R39). -/
theorem targetOfWord_cases (n : Nat) :
    IsBufferWord n ∨ (∃ r, targetOfWord n = .reg r ∧ n = (regOffset r).toNat / 4) ∨
      ((n = 11 ∨ 21 ≤ n) ∧ ¬ IsBufferWord n ∧ targetOfWord n = .reserved) := by
  by_cases hb : IsBufferWord n
  · exact .inl hb
  rcases (by omega : n < 11 ∨ n = 11 ∨ (11 < n ∧ n < 21) ∨ 21 ≤ n) with h | rfl | ⟨h, h'⟩ | h
  · interval_cases n <;> exact .inr (.inl ⟨_, rfl, rfl⟩)
  · exact .inr (.inr ⟨.inl rfl, hb, rfl⟩)
  · interval_cases n <;> exact .inr (.inl ⟨_, rfl, rfl⟩)
  · exact .inr (.inr ⟨.inr h, hb, targetOfWord_reserved h (fun ht => hb (.inl ht)) (fun hw => hb (.inr hw))⟩)

/-- No buffer word is a register. -/
theorem targetOfWord_ne_reg_of_bufferWord {n : Nat} (h : IsBufferWord n) (r : RegName) : targetOfWord n ≠ .reg r := by
  rcases h with ⟨h, h'⟩ | ⟨h, h'⟩
  · rw [targetOfWord_txt h h']; simp
  · rw [targetOfWord_bin h h']; simp

/-- A register stands at its own word and nowhere else (R17). -/
theorem targetOfWord_eq_reg_iff (n : Nat) (r : RegName) :
    targetOfWord n = .reg r ↔ n = (regOffset r).toNat / 4 := by
  constructor
  · intro h
    rcases targetOfWord_cases n with hb | ⟨r', hr', hn⟩ | ⟨_, _, hr⟩
    · exact absurd h (targetOfWord_ne_reg_of_bufferWord hb r)
    · rw [hr'] at h; cases h; exact hn
    · rw [hr] at h; cases h
  · rintro rfl; exact targetOf_regOffset r

/-- STATUS is word 1 (R17). -/
theorem targetOf_eq_status_iff (off : Offset) : targetOf off = .reg .status ↔ off.toNat / 4 = 1 :=
  targetOfWord_eq_reg_iff _ .status

/-- The offsets R39 lists are reserved. -/
theorem targetOf_eq_reserved {off : Offset}
    (h : 0x02C ≤ off.toNat ∧ off.toNat ≤ 0x02F ∨ 0x054 ≤ off.toNat ∧ off.toNat ≤ 0x0FF ∨
      0x180 ≤ off.toNat ∧ off.toNat ≤ 0x1FF ∨ 0x250 ≤ off.toNat) : targetOf off = .reserved := by
  by_cases h11 : off.toNat / 4 = 11
  · rw [targetOf, h11]; rfl
  · exact targetOfWord_reserved (by omega) (by omega) (by omega)

/-! ### One access -/

/-- An idle read of a register, at its offset (R36). -/
theorem busRead_regOffset {s : State} (hidle : s.engine.phase = .idle) (r : RegName) :
    busRead (regOffset r) s = (regRead r s, s) := by
  rw [busRead_idle hidle, targetOf_regOffset]; rfl

/-- STATUS reads as its word, busy or idle (R40). -/
theorem busRead_status {off : Offset} (h : targetOf off = .reg .status) (s : State) :
    busRead off s = (statusWord s, s) := by
  rw [busRead, if_neg (fun hb => hb.2 h), h]; rfl

/-- While busy every word but STATUS reads as a free draw (R40). -/
theorem busRead_busy {s : State} (hrun : s.engine.phase = .run) {off : Offset} (h : targetOf off ≠ .reg .status) :
    busRead off s = (Config.freeWord s.draws, { s with draws := s.draws + 1 }) :=
  if_pos ⟨busy_eq_true hrun, h⟩

/-- A buffer word reads its four bytes (20_memory.md R41). -/
theorem idleRead_bufferWord {n : Nat} (h : IsBufferWord n) (s : State) :
    idleRead (targetOfWord n) s = Memory.readWord s.mem (4 * n) := by
  rcases h with ⟨h, h'⟩ | ⟨h, h'⟩
  · rw [targetOfWord_txt h h', show 4 * n = txtBase + 4 * (n - 64) by rw [txtBase]; omega]; rfl
  · rw [targetOfWord_bin h h', show 4 * n = binBase + 4 * (n - 128) by rw [binBase]; omega]; rfl

/-- An idle write to a buffer word stores its four bytes (R41). -/
theorem idleWrite_bufferWord {n : Nat} (h : IsBufferWord n) (v : Word) (s : State) :
    idleWrite (targetOfWord n) v s = { s with mem := Memory.writeWord s.mem (4 * n) v } := by
  rcases h with ⟨h, h'⟩ | ⟨h, h'⟩
  · rw [targetOfWord_txt h h', show 4 * n = txtBase + 4 * (n - 64) by rw [txtBase]; omega]; rfl
  · rw [targetOfWord_bin h h', show 4 * n = binBase + 4 * (n - 128) by rw [binBase]; omega]; rfl

/-- The offset of word `n` selects word `n`. -/
theorem targetOf_ofNat {n : Nat} (h : n < 1024) : targetOf (BitVec.ofNat 12 (4 * n)) = targetOfWord n := by
  rw [targetOf, BitVec.toNat_ofNat, Nat.mod_eq_of_lt (by omega), Nat.mul_div_cancel_left n (by decide)]

theorem IsBufferWord.lt_1024 {n : Nat} (h : IsBufferWord n) : n < 1024 := by
  unfold IsBufferWord at h; omega

theorem busRead_bufferWord {s : State} (hidle : s.engine.phase = .idle) {n : Nat} (h : IsBufferWord n) :
    busRead (BitVec.ofNat 12 (4 * n)) s = (Memory.readWord s.mem (4 * n), s) := by
  rw [busRead_idle hidle, targetOf_ofNat h.lt_1024, idleRead_bufferWord h]

theorem busWrite_bufferWord {s : State} (hidle : s.engine.phase = .idle) {n : Nat} (h : IsBufferWord n) (v : Word) :
    busWrite (BitVec.ofNat 12 (4 * n)) v s = { s with mem := Memory.writeWord s.mem (4 * n) v } := by
  rw [busWrite_idle hidle, targetOf_ofNat h.lt_1024, idleWrite_bufferWord h]

/-- Settles O18: each register is read at its offset, and a buffer word reads its four bytes. -/
theorem idleReadsFollowTheRegisterMap : Obligations.IdleReadsFollowTheRegisterMap := by
  intro s hidle
  have reg := busRead_regOffset hidle
  refine ⟨reg .cmd, reg .status, reg .binLen, reg .txtLen, reg .cntLo, reg .cntHi, reg .timeLo, reg .timeHi,
    reg .candLo, reg .candHi, reg .candLen, reg .binCode, reg .code, reg .codeAscLo, reg .codeAscHi,
    fun k hk => ?_, fun k hk => ?_, fun k hk => ?_⟩
  · match k, hk with
    | 0, _ => exact reg .digest0
    | 1, _ => exact reg .digest1
    | 2, _ => exact reg .digest2
    | 3, _ => exact reg .digest3
    | 4, _ => exact reg .digest4
  · rw [show 0x100 + 4 * k = 4 * (64 + k) by omega]
    exact busRead_bufferWord hidle (.inl (by omega))
  · rw [show 0x200 + 4 * k = 4 * (128 + k) by omega]
    exact busRead_bufferWord hidle (.inr (by omega))

/-- Settles O19: STATUS is word 1, and a busy read of another word draws a free value. -/
theorem busyReadsAreFreeButStatus : Obligations.BusyReadsAreFreeButStatus := fun s off hrun =>
  ⟨fun h => busRead_status ((targetOf_eq_status_iff off).2 h) s,
    fun h => busRead_busy hrun (fun hs => h ((targetOf_eq_status_iff off).1 hs))⟩

/-- Settles O20: each of those offsets selects a reserved word, which reads 0 and ignores a write. -/
theorem reservedOffsetsReadZeroAndIgnoreWrites : Obligations.ReservedOffsetsReadZeroAndIgnoreWrites := by
  intro s off v hidle hoff
  rw [busRead_idle hidle, busWrite_idle hidle, targetOf_eq_reserved hoff]
  exact ⟨rfl, rfl⟩

/-- What a store of one word leaves in the four bytes it names and in all others. -/
theorem writeWord_lanes_and_frame {m : Memory} (hm : Memory.wf m = true) (a : Nat) (v : Word) :
    (∀ i, i < 4 → Memory.read (Memory.writeWord m a v) (a + i) = v.extractLsb' (8 * i) 8) ∧
    (∀ a', a' < a ∨ a + 4 ≤ a' → Memory.read (Memory.writeWord m a v) a' = Memory.read m a') :=
  ⟨fun _ hi => read_writeWord_inside hm a v hi, fun _ ha => read_writeWord_outside m v ha⟩

/-- Settles O24: a write to a buffer word is one word store at its address. -/
theorem windowWritesSetTheFourLanes : Obligations.WindowWritesSetTheFourLanes := by
  refine ⟨fun s k v hidle hm hk => ?_, fun s k v hidle hm hk => ?_⟩
  · rw [show 0x100 + 4 * k = 4 * (64 + k) by omega]
    exact ⟨_, busWrite_bufferWord hidle (.inl (by omega)) v, writeWord_lanes_and_frame hm _ v⟩
  · rw [show 0x200 + 4 * k = 4 * (128 + k) by omega]
    exact ⟨_, busWrite_bufferWord hidle (.inr (by omega)) v, writeWord_lanes_and_frame hm _ v⟩

/-! ### Offset bits 1 and 0, and the block's window -/

/-- Clearing bits 1 and 0 of an offset keeps its word (20_memory.md R38). -/
theorem targetOf_clearLowBits (off : Offset) : targetOf (off &&& 0xFFC) = targetOf off := by
  have h : (off &&& 0xFFC).toNat / 4 = off.toNat / 4 := by
    have hlt : off.toNat / 4 < 2 ^ 10 := by have := off.isLt; omega
    have h4 : ∀ n : Nat, n / 4 = n >>> 2 := fun n => (Nat.shiftRight_eq_div_pow n 2).symm
    rw [BitVec.toNat_and, h4, Nat.shiftRight_and_distrib, ← h4 off.toNat,
      show (0xFFC : Offset).toNat >>> 2 = 2 ^ 10 - 1 from rfl, Nat.and_two_pow_sub_one_eq_mod, Nat.mod_eq_of_lt hlt]
  rw [targetOf, targetOf, h]

/-- An access depends on its offset only through the word it selects. -/
theorem bus_congr {off off' : Offset} (h : targetOf off = targetOf off') (v : Word) (s : State) :
    busRead off s = busRead off' s ∧ busWrite off v s = busWrite off' v s := by
  simp only [busRead, busWrite, h, and_self]

/-- BASE is 4 KiB aligned (R38). -/
theorem base_mod_4096 : Config.base % 4096 = 0 := by
  rw [Config.base, Config.windowSize, Nat.mul_mod_left]

/-- Settles O22: an access goes by the word its offset selects, and the window is one 4 KiB page. -/
theorem offsetBitsOneAndZeroAreIgnored : Obligations.OffsetBitsOneAndZeroAreIgnored := by
  refine ⟨fun s off v => bus_congr (targetOf_clearLowBits off).symm v s, base_mod_4096, fun off => ?_,
    fun addr h => ?_⟩
  · have := off.isLt
    rw [windowOffset, if_pos ⟨by omega, by rw [Config.windowSize]; omega⟩, Nat.add_sub_cancel_left, BitVec.ofNat_toNat,
      BitVec.setWidth_eq]
  · rw [windowOffset, if_neg (by rw [Config.windowSize]; omega)]

/-! ### Read after write -/

/-- What a register reads after an idle write of `v`, where it read `old` before: a length keeps the low 8 bits
(10_state.md R19), the other RW registers the word, and the rest do not change (R33). -/
def regReadBack (r : RegName) (v old : Word) : Word :=
  match r with
  | .binLen | .txtLen | .candLen => (v.setWidth 8).setWidth 32
  | .cntLo | .cntHi | .timeLo | .timeHi | .candLo | .candHi => v
  | _ => old

/-- Register read after register write: the written one reads back, any other reads as before. -/
theorem regRead_regWrite {r : RegName} (hr : r ≠ .cmd) (r' : RegName) (v : Word) (s : State) :
    regRead r' (regWrite r v s) = if r' = r then regReadBack r v (regRead r s) else regRead r' s := by
  cases r with
  | cmd => exact absurd rfl hr
  | _ => cases r' <;> rfl

@[simp] theorem regWrite_mem (r : RegName) (v : Word) (s : State) : (regWrite r v s).mem = s.mem := by
  cases r <;> rfl

/-- A store from TXT's first byte on changes no register: DIGEST stands below it. -/
theorem regRead_writeWord (r : RegName) {a : Nat} (ha : 0x100 ≤ a) (v : Word) (s : State) :
    regRead r { s with mem := Memory.writeWord s.mem a v } = regRead r s := by
  cases r with
  | digest0 | digest1 | digest2 | digest3 | digest4 =>
    exact readWord_writeWord_other s.mem v (.inl (by rw [digestBase]; omega))
  | _ => rfl

/-- A write to any word but CMD leaves the engine alone. -/
theorem idleWrite_engine {off : Offset} (h : off.toNat / 4 ≠ 0) (v : Word) (s : State) :
    (idleWrite (targetOf off) v s).engine = s.engine := by
  rcases idleWrite_cases off v s with ⟨h0, _⟩ | ⟨_, e⟩ | ⟨_, _, e⟩ | ⟨_, _, e⟩
  · exact absurd h0 h
  all_goals rw [e]

/-- A register that is not word 0 is not CMD. -/
theorem ne_cmd_of_word {n : Nat} {r : RegName} (hn : n = (regOffset r).toNat / 4) (h0 : n ≠ 0) : r ≠ .cmd := by
  rintro rfl; exact h0 hn

/-- A write to a word other than CMD changes what no other word reads (20_memory.md R46). -/
theorem idleRead_idleWrite_other {n n' : Nat} (h0 : n ≠ 0) (h : n' ≠ n) (v : Word) (s : State) :
    idleRead (targetOfWord n') (idleWrite (targetOfWord n) v s) = idleRead (targetOfWord n') s := by
  rcases targetOfWord_cases n with hb | ⟨r, hr, hn⟩ | ⟨_, _, hr⟩
  · rw [idleWrite_bufferWord hb]
    rcases targetOfWord_cases n' with hb' | ⟨r', hr', _⟩ | ⟨_, _, hr'⟩
    · rw [idleRead_bufferWord hb', idleRead_bufferWord hb']
      exact readWord_writeWord_other s.mem v (by omega)
    · rw [hr']
      exact regRead_writeWord r' (by unfold IsBufferWord at hb; omega) v s
    · rw [hr']; rfl
  · rw [hr]
    rcases targetOfWord_cases n' with hb' | ⟨r', hr', hn'⟩ | ⟨_, _, hr'⟩
    · rw [idleRead_bufferWord hb', idleRead_bufferWord hb', idleWrite, regWrite_mem]
    · have hne : r' ≠ r := by rintro rfl; exact h (hn'.trans hn.symm)
      rw [hr', idleWrite, idleRead, idleRead, regRead_regWrite (ne_cmd_of_word hn h0), if_neg hne]
    · rw [hr']; rfl
  · rw [hr]; rfl

/-- What word `n` reads after an idle write of `v`, where it read `old` before, by the word's index: the lengths, the
other RW registers and the buffers, and the rest (R37, R46). -/
def wordReadBack (n : Nat) (v old : Word) : Word :=
  if n = 2 ∨ n = 3 ∨ n = 10 then v &&& 0xFF
  else if (4 ≤ n ∧ n ≤ 9) ∨ (64 ≤ n ∧ n ≤ 95) ∨ (128 ≤ n ∧ n ≤ 147) then v
  else old

/-- The low 8 bits of a word, as a length register returns them (10_state.md R19). -/
theorem setWidth_setWidth_eq_and (v : Word) : (v.setWidth 8).setWidth 32 = v &&& 0xFF := by
  have hlt : v.toNat % 2 ^ 8 < 2 ^ 32 := by omega
  apply BitVec.eq_of_toNat_eq
  rw [BitVec.toNat_setWidth, BitVec.toNat_setWidth, BitVec.toNat_and, Nat.mod_eq_of_lt hlt,
    ← Nat.and_two_pow_sub_one_eq_mod]
  rfl

theorem wordReadBack_reg (r : RegName) (v old : Word) :
    wordReadBack ((regOffset r).toNat / 4) v old = regReadBack r v old := by
  rw [wordReadBack, ← setWidth_setWidth_eq_and]
  cases r <;> rfl

theorem wordReadBack_bufferWord {n : Nat} (h : IsBufferWord n) (v old : Word) : wordReadBack n v old = v := by
  unfold IsBufferWord at h
  rw [wordReadBack, if_neg (by omega), if_pos (by omega)]

theorem wordReadBack_reserved {n : Nat} (h : n = 11 ∨ 21 ≤ n) (hb : ¬ IsBufferWord n) (v old : Word) :
    wordReadBack n v old = old := by
  unfold IsBufferWord at hb
  rw [wordReadBack, if_neg (by omega), if_neg (by omega)]

/-- A word other than CMD reads back what was written, as far as it stores it (20_memory.md R46). -/
theorem idleRead_idleWrite_same {n : Nat} (h0 : n ≠ 0) (v : Word) {s : State} (hm : Memory.wf s.mem = true) :
    idleRead (targetOfWord n) (idleWrite (targetOfWord n) v s) = wordReadBack n v (idleRead (targetOfWord n) s) := by
  rcases targetOfWord_cases n with hb | ⟨r, hr, hn⟩ | ⟨hres, hb, hr⟩
  · rw [idleWrite_bufferWord hb, idleRead_bufferWord hb, wordReadBack_bufferWord hb]
    exact readWord_writeWord_same hm _ v
  · rw [hr, idleWrite, idleRead, idleRead, regRead_regWrite (ne_cmd_of_word hn h0), if_pos rfl, hn, wordReadBack_reg]
  · rw [hr, wordReadBack_reserved hres hb]; rfl

/-- Settles O23: the engine stays idle, so the read after the write is idle too, and it goes by the two words. -/
theorem readReturnsTheLatestWrite : Obligations.ReadReturnsTheLatestWrite := by
  intro s off off' v hidle hm h0
  have hidle' : (idleWrite (targetOf off) v s).engine.phase = .idle := by rw [idleWrite_engine h0, hidle]
  rw [busWrite_idle hidle, busRead_idle hidle', busRead_idle hidle, targetOf, targetOf]
  by_cases h : off'.toNat / 4 = off.toNat / 4
  · rw [if_pos h, h]; exact idleRead_idleWrite_same h0 v hm
  · rw [if_neg h]; exact idleRead_idleWrite_other h0 h v s

end Sys2Proof.Machine
end

section
/-! The command word: which words are legal and what the decoders read from them (30_encoding.md R49 to R52). -/

namespace Sys2Proof.Machine

open Sys2Proof.Spec

/-- A command decodes from its own word and from no other (R50). -/
theorem decode_eq_ok_iff (w : Word) (i : Instr) : decode w = .ok i ↔ w = encode i :=
  ⟨eq_encode_of_decode, fun h => h ▸ decode_encode i⟩

/-- Settles O1: a word that decodes has its reserved bits clear, so OP and S are the whole of it. -/
theorem decodeAcceptsExactlyTheSevenWords : Obligations.DecodeAcceptsExactlyTheSevenWords :=
  ⟨decode_eq_ok_iff, rfl, rfl, rfl, rfl, rfl, rfl, rfl⟩

theorem toOption_decode_encode (i : Instr) : (decode (encode i)).toOption = some i := by
  rw [decode_encode]; rfl

/-- The illegal words are the words of no command (R52). -/
theorem toOption_decode_eq_none_iff (w : Word) : (decode w).toOption = none ↔ ∀ i, w ≠ encode i := by
  cases hd : decode w with
  | ok i => simpa [Except.toOption] using ⟨i, eq_encode_of_decode hd⟩
  | error e =>
    refine ⟨fun _ i hw => ?_, fun _ => rfl⟩
    rw [hw, decode_encode] at hd; cases hd

/-! ### The decoder of 30_encoding.md section 3 -/

theorem decoder_encode (i : Instr) : decoder (encode i) = some i := by
  cases i <;> rfl

theorem decoder_eq_none_of_ne_encode {w : Word} (h : ∀ i, w ≠ encode i) : decoder w = none :=
  (if_neg (h .enc)).trans <| (if_neg (h .dec)).trans <| (if_neg (h .decS)).trans <| (if_neg (h .hotp)).trans <|
    (if_neg (h .totp)).trans <| (if_neg (h .verify)).trans <| if_neg (h .zero)

/-- Settles O2: both decoders read each command from its own word and nothing from any other. -/
theorem fieldDecoderIsTheSpecsDecoder : Obligations.FieldDecoderIsTheSpecsDecoder := by
  intro w
  by_cases h : ∃ i, w = encode i
  · obtain ⟨i, rfl⟩ := h
    rw [toOption_decode_encode, decoder_encode]
  · have hne : ∀ i, w ≠ encode i := fun i hi => h ⟨i, hi⟩
    rw [(toOption_decode_eq_none_iff w).2 hne, decoder_eq_none_of_ne_encode hne]

/-! ### The fields of the seven words -/

/-- No command's word has a reserved bit (R49). -/
theorem getLsbD_encode_reserved (i : Instr) {k : Nat} (hk : 4 ≤ k ∧ k ≤ 7 ∨ 9 ≤ k ∧ k ≤ 31) :
    (encode i).getLsbD k = false := by
  have key : ∀ j : Fin 32, 4 ≤ j.val ∧ j.val ≤ 7 ∨ 9 ≤ j.val → (encode i).getLsbD j = false := by
    cases i <;> decide
  exact key ⟨k, by omega⟩ (by simp; omega)

/-- OP of a command is 0x1 to 0x6 (R50). -/
theorem op_encode (i : Instr) : 1 ≤ (encode i).toNat % 16 ∧ (encode i).toNat % 16 ≤ 6 := by
  cases i <;> decide

/-- Only the OP of DEC stands beside S = 1 (R51). -/
theorem op_encode_of_strict {i : Instr} (h : (encode i).getLsbD 8 = true) : (encode i).toNat % 16 = 2 := by
  cases i with
  | decS => rfl
  | _ => cases h

/-- Settles O3: none of these fields is a field of a command's word. -/
theorem reservedAndStrictWordsAreIllegal : Obligations.ReservedAndStrictWordsAreIllegal := by
  intro w h
  refine (toOption_decode_eq_none_iff w).2 ?_
  rintro i rfl
  obtain ⟨hlo, hhi⟩ := op_encode i
  rcases h with ⟨k, hk, hbit⟩ | h0 | h7 | ⟨hs, h2⟩
  · rw [getLsbD_encode_reserved i hk] at hbit; cases hbit
  · omega
  · omega
  · exact h2 (op_encode_of_strict hs)

end Sys2Proof.Machine
end

section
/-! The host's accesses, a WAIT (30_encoding.md R54), and the load lines LDTXT and LDBIN run to their end. -/

namespace Sys2Proof.Machine

open Sys2Proof.Spec

/-! ### One host turn -/

/-- An access that reaches the block outside reset is performed. -/
theorem hostTurn_of_access {s : State} {op : HostOp} {rest : List HostOp} {off : Offset} (hp : s.program = op :: rest)
    (hsel : selects op = some off) (hr : s.inReset = false) : hostTurn s = .next (hostAccess op rest off s) := by
  simp [hostTurn, hp, hsel, hr]

theorem hostWait_run {s : State} (h : s.engine.phase = .run) (rest : List HostOp) : hostWait rest s = s :=
  if_pos (busy_eq_true h)

theorem hostWait_idle {s : State} (h : s.engine.phase = .idle) (rest : List HostOp) :
    hostWait rest s = { s with program := rest, record := s.record ++ [statusWord s] } := by
  simp [hostWait, busy_eq_false h]

/-- BUSY is bit 0 of STATUS (10_state.md R18). -/
theorem getLsbD_statusWord_zero (s : State) : (statusWord s).getLsbD 0 = busy s := by
  rw [statusWord_eq_concat, BitVec.getLsbD_concat_zero]

/-- Settles O26: one poll of STATUS leaves the WAIT in place while busy, and ends it once idle. -/
theorem waitRecordsTheFirstIdleStatus : Obligations.WaitRecordsTheFirstIdleStatus := by
  intro s rest ts hp ht hr
  have hstep : step s = .next (hostWait rest { s with turns := ts }) := by
    rw [step_cons ht]
    exact hostTurn_of_access (s := { s with turns := ts }) hp rfl hr
  refine ⟨fun hrun => ?_, fun hidle => ⟨?_, ?_⟩⟩
  · rw [hstep, hostWait_run (s := { s with turns := ts }) hrun]
  · rw [hstep, hostWait_idle (s := { s with turns := ts }) hidle]; rfl
  · rw [getLsbD_statusWord_zero, busy_eq_false hidle]

/-- On an empty schedule an idle block leaves the move to the host, which performs its next write (log entry 2). -/
theorem step_of_write {s : State} {off : Offset} {v : Word} {rest : List HostOp} (hidle : s.engine.phase = .idle)
    (hr : s.inReset = false) (ht : s.turns = []) (hp : s.program = .wr off v :: rest) :
    step s = .next (idleWrite (targetOf off) v { s with program := rest }) := by
  have hturn : nextTurn s = .host := by simp [nextTurn, ht, hidle]
  have hpop : popTurn s = s := by rw [popTurn, ht, List.tail_nil, ← ht]
  rw [step, hturn, hpop, takeTurn, hostTurn_of_access hp rfl hr, hostAccess,
    busWrite_idle (s := { s with program := rest }) hidle]

/-! ### Bytes and the words that carry them -/

/-- The four bytes a window word holds, lane 0 first (20_memory.md R41). -/
def wordBytes (v : Word) : List Byte := [lane v 0, lane v 1, lane v 2, lane v 3]

theorem wordBytes_ofLanes (a b c d : Byte) : wordBytes (ofLanes a b c d) = [a, b, c, d] := by
  obtain ⟨h0, h1, h2, h3⟩ := lane_ofLanes a b c d
  rw [wordBytes, h0, h1, h2, h3]

/-- The packed words carry the byte sequence, and 0x00 after it (R54). -/
theorem wordBytes_packWords (bs : List Byte) : ∃ pad, (packWords bs).flatMap wordBytes = bs ++ pad := by
  induction bs using packWords.induct with
  | case1 => exact ⟨[], rfl⟩
  | case2 a => exact ⟨[0, 0, 0], by simp [packWords, wordBytes_ofLanes]⟩
  | case3 a b => exact ⟨[0, 0], by simp [packWords, wordBytes_ofLanes]⟩
  | case4 a b c => exact ⟨[0], by simp [packWords, wordBytes_ofLanes]⟩
  | case5 a b c d rest ih =>
    obtain ⟨pad, h⟩ := ih
    exact ⟨pad, by simp [packWords, wordBytes_ofLanes, h]⟩

theorem length_packWords (bs : List Byte) : (packWords bs).length = (bs.length + 3) / 4 := by
  induction bs using packWords.induct with
  | case1 | case2 | case3 | case4 => simp [packWords]
  | case5 a b c d rest ih => simp only [packWords, List.length_cons, ih]; omega

theorem length_writeRun (base : Nat) (ws : List Word) : (writeRun base ws).length = ws.length := by
  induction ws generalizing base with
  | nil => rfl
  | cons w ws ih => rw [writeRun, List.length_cons, ih, List.length_cons]

theorem writeBytes_append (m : Memory) (base : Nat) (xs ys : List Byte) :
    Memory.writeBytes m base (xs ++ ys) = Memory.writeBytes (Memory.writeBytes m base xs) (base + xs.length) ys := by
  induction xs generalizing m base with
  | nil => rfl
  | cons x xs ih =>
    rw [List.cons_append, Memory.writeBytes, Memory.writeBytes, ih, List.length_cons, Nat.add_assoc base 1,
      Nat.add_comm 1]

/-- The first bytes of a stored sequence read back. -/
theorem readBytes_writeBytes_take {m : Memory} (hm : Memory.wf m = true) (base : Nat) {bs : List Byte} {n : Nat}
    (h : n ≤ bs.length) : Memory.readBytes (Memory.writeBytes m base bs) base n = bs.take n := by
  refine List.ext_getElem (by simp [h]) (fun i h1 h2 => ?_)
  have hi : i < bs.length := by simp at h1; omega
  simp only [Memory.readBytes, List.getElem_map, List.getElem_range, List.getElem_take]
  rw [read_writeBytes_inside hm base bs hi, List.getD_eq_getElem _ _ hi]

/-! ### The load lines -/

/-- `s` with a byte sequence stored, and the host going on with `rest`. -/
def hostStored (rest : List HostOp) (base : Nat) (bs : List Byte) (s : State) : State :=
  { s with program := rest, mem := Memory.writeBytes s.mem base bs }

/-- Two stores to adjacent byte ranges are one. -/
theorem hostStored_hostStored (p rest : List HostOp) (base : Nat) (xs ys : List Byte) (s : State) :
    hostStored rest (base + xs.length) ys (hostStored p base xs s) = hostStored rest base (xs ++ ys) s := by
  rw [hostStored, hostStored, hostStored, writeBytes_append]

/-- A host write to a buffer word stores its four bytes. -/
theorem step_of_bufferWord_write {s : State} {n : Nat} {v : Word} {rest : List HostOp} (hn : IsBufferWord n)
    (hidle : s.engine.phase = .idle) (hr : s.inReset = false) (ht : s.turns = [])
    (hp : s.program = .wr (BitVec.ofNat 12 (4 * n)) v :: rest) :
    step s = .next (hostStored rest (4 * n) (wordBytes v) s) := by
  rw [step_of_write hidle hr ht hp, targetOf_ofNat hn.lt_1024, idleWrite_bufferWord hn]; rfl

/-- A run of writes to consecutive buffer words stores their bytes, and the host goes on with `rest`. -/
theorem run_writeRun {ws : List Word} {n : Nat} (hw : ∀ j, j < ws.length → IsBufferWord (n + j)) {s : State}
    {rest : List HostOp} (hidle : s.engine.phase = .idle) (hr : s.inReset = false) (ht : s.turns = [])
    (hp : s.program = writeRun (4 * n) ws ++ rest) (k : Nat) :
    Host.Core.run core (ws.length + k) s =
      Host.Core.run core k (hostStored rest (4 * n) (ws.flatMap wordBytes) s) := by
  induction ws generalizing n s with
  | nil => rw [List.length_nil, Nat.zero_add, ← show s.program = rest from hp]; rfl
  | cons w ws ih =>
    have hstep := step_of_bufferWord_write (hw 0 (Nat.succ_pos _)) hidle hr ht hp
    have hw' : ∀ j, j < ws.length → IsBufferWord (n + 1 + j) := fun j hj => by
      have := hw (j + 1) (Nat.succ_lt_succ hj)
      rwa [Nat.add_assoc, Nat.add_comm 1]
    rw [List.length_cons, Nat.add_right_comm, run_succ hstep]
    refine (ih hw' (s := hostStored _ _ _ s) hidle hr ht rfl).trans ?_
    exact congrArg (Host.Core.run core k) (hostStored_hostStored _ rest (4 * n) (wordBytes w) _ s)

/-- A load line, run to its end: the bytes packed into consecutive buffer words, then their count to `r`. -/
theorem run_load {bs : List Byte} {n : Nat} (hw : ∀ j, j < (packWords bs).length → IsBufferWord (n + j)) {s : State}
    {r : RegName} {v : Word} (hidle : s.engine.phase = .idle) (hr : s.inReset = false) (ht : s.turns = [])
    (hp : s.program = writeRun (4 * n) (packWords bs) ++ [wrReg r v]) :
    Host.Core.run core s.program.length s =
      .next (regWrite r v (hostStored [] (4 * n) ((packWords bs).flatMap wordBytes) s)) := by
  rw [hp, List.length_append, length_writeRun, List.length_singleton, run_writeRun hw hidle hr ht hp]
  refine run_one ((step_of_write (s := hostStored [wrReg r v] _ _ s) hidle hr ht rfl).trans ?_)
  rw [targetOf_regOffset]; rfl

/-- A buffer that holds the packed words of a byte sequence reads as it. -/
theorem readBytes_packed {m : Memory} (hm : Memory.wf m = true) (base : Nat) (bs : List Byte) :
    Memory.readBytes (Memory.writeBytes m base ((packWords bs).flatMap wordBytes)) base bs.length = bs := by
  obtain ⟨pad, h⟩ := wordBytes_packWords bs
  rw [h, readBytes_writeBytes_take hm base (by simp), List.take_left]

/-- Settles O27: each line is a run of word writes and a write of the count, one host turn each. -/
theorem loadLinesPlaceTheirBytes : Obligations.LoadLinesPlaceTheirBytes := by
  intro s bs hidle hr hm ht
  have hlen := length_packWords bs
  refine ⟨fun hfit hp => ?_, fun hfit hp => ?_⟩
  · have hw : ∀ j, j < (packWords bs).length → IsBufferWord (64 + j) := fun j hj => .inl (by omega)
    refine ⟨_, run_load hw hidle hr ht hp, rfl, rfl, ?_, readBytes_packed hm _ bs⟩
    rw [← BitVec.setWidth_ofNat_of_le (show 8 ≤ 32 by decide)]; rfl
  · have hw : ∀ j, j < (packWords bs).length → IsBufferWord (128 + j) := fun j hj => .inr (by omega)
    refine ⟨_, run_load hw hidle hr ht hp, rfl, rfl, ?_, readBytes_packed hm _ bs⟩
    rw [← BitVec.setWidth_ofNat_of_le (show 8 ≤ 32 by decide)]; rfl

end Sys2Proof.Machine
end

section
/-! A command's outputs depend on its operands only: 30_encoding.md R55. -/

namespace Sys2Proof.Machine

open Sys2Proof.Spec

/-- Two runs of the pseudocode of `i` that end alike: with one error code, or with one MATCH and the same outputs. -/
inductive EndsAlike (i : Instr) : Except ErrCode (State × Bool) → Except ErrCode (State × Bool) → Prop where
  | error (e : ErrCode) : EndsAlike i (.error e) (.error e)
  | ok {t t' : State} (m : Bool) (same : sameOutputs i t t') : EndsAlike i (.ok (t, m)) (.ok (t', m))

/-- A completion touches no output but STATUS (10_state.md R35). -/
theorem sameOutputs_complete (i : Instr) (e : ErrCode) (m : Bool) (t t' : State) :
    sameOutputs i (complete e m t) (complete e m t') = sameOutputs i t t' := by
  cases i <;> rfl

/-! ### Stored bytes read back alike -/

/-- DIGEST holds the digest of a HOTPCALC result that is written (R64). -/
theorem digest_writeResults {s : State} (hm : Memory.wf s.mem = true) {r : HotpResult} (hr : r.digest.length = 20) :
    digest (writeResults r s) = r.digest := by
  have := readBytes_writeBytes hm digestBase r.digest
  rwa [hr] at this

section
variable {s s' : State} (hm : Memory.wf s.mem = true) (hm' : Memory.wf s'.mem = true)
include hm hm'

/-- A byte sequence stored over two memories reads alike, as far as its length register counts it. -/
theorem readBytes_writeBytes_count (base : Nat) (bs : List Byte) :
    Memory.readBytes (Memory.writeBytes s.mem base bs) base (BitVec.ofNat 8 bs.length).toNat =
      Memory.readBytes (Memory.writeBytes s'.mem base bs) base (BitVec.ofNat 8 bs.length).toNat := by
  have hle : (BitVec.ofNat 8 bs.length).toNat ≤ bs.length := by rw [BitVec.toNat_ofNat]; exact Nat.mod_le ..
  rw [readBytes_writeBytes_take hm base hle, readBytes_writeBytes_take hm' base hle]

theorem binBytes_writeBin_count (bs : List Byte) :
    binBytes (writeBin bs s) (writeBin bs s).regs.binLen.toNat =
      binBytes (writeBin bs s') (writeBin bs s').regs.binLen.toNat := by
  rw [binBytes_eq_readBytes, binBytes_eq_readBytes, writeBin_mem, writeBin_mem, writeBin_regs, writeBin_regs]
  exact readBytes_writeBytes_count hm hm' binBase bs

theorem txtBytes_writeTxt_count (bs : List Byte) :
    txtBytes (writeTxt bs s) (writeTxt bs s).regs.txtLen.toNat =
      txtBytes (writeTxt bs s') (writeTxt bs s').regs.txtLen.toNat := by
  rw [txtBytes_eq_readBytes, txtBytes_eq_readBytes, writeTxt_mem, writeTxt_mem, writeTxt_regs, writeTxt_regs]
  exact readBytes_writeBytes_count hm hm' txtBase bs

/-! ### The commands -/

theorem encBody_endsAlike (h : sameOperands .enc s s') : EndsAlike .enc (encBody s) (encBody s') := by
  obtain ⟨hlen, hbytes⟩ := h
  have hin : binInput s' = binInput s := hbytes.symm
  rw [encBody, encBody, ← hlen, hin]
  split
  · exact .error _
  · exact .ok _ ⟨rfl, txtBytes_writeTxt_count hm hm' _⟩

/-- DEC and DEC.S have the same operands and the same outputs. -/
theorem decBody_endsAlike {i : Instr} (strict : Bool)
    (hout : ∀ t t', sameOutputs i t t' = sameOutputs .dec t t') (h : sameOperands .dec s s') :
    EndsAlike i (decBody strict s) (decBody strict s') := by
  obtain ⟨hlen, hbytes⟩ := h
  have hin : txtInput s' = txtInput s := hbytes.symm
  rw [decBody, decBody, ← hlen, hin]
  split
  · exact .error _
  · cases base32Decode (txtInput s) strict with
    | none => exact .error _
    | some bs => exact .ok _ ((hout _ _).symm ▸ ⟨rfl, binBytes_writeBin_count hm hm' bs⟩)

theorem hotpBody_endsAlike (h : sameOperands .hotp s s') : EndsAlike .hotp (hotpBody s) (hotpBody s') := by
  obtain ⟨hlen, hbytes, hlo, hhi⟩ := h
  have hin : binInput s' = binInput s := hbytes.symm
  have hcnt : cntValue s' = cntValue s := by rw [cntValue, cntValue, hlo, hhi]
  rw [hotpBody, hotpBody, ← hlen, hin, hcnt]
  split
  · exact .error _
  · split
    · exact .error _
    · refine .ok _ ⟨rfl, ?_⟩
      rw [digest_writeResults hm (length_hmacSha1 _ _), digest_writeResults hm' (length_hmacSha1 _ _)]

theorem totpBody_endsAlike (h : sameOperands .totp s s') : EndsAlike .totp (totpBody s) (totpBody s') := by
  obtain ⟨hlen, hbytes, hlo, hhi⟩ := h
  have hsec : secretOf s' = secretOf s := congrArg decodeLenient hbytes.symm
  have htime : timeValue s' = timeValue s := by rw [timeValue, timeValue, hlo, hhi]
  rw [totpBody, totpBody, ← hlen, hsec, htime]
  split
  · exact .error _
  · split
    · exact .error _
    · have hw := wf_writeBytes hm binBase (secretOf s)
      have hw' := wf_writeBytes hm' binBase (secretOf s)
      refine .ok _ ⟨rfl, ?_, rfl, ?_⟩
      · rw [binBytes_writeResults (length_hmacSha1 _ _), binBytes_writeResults (length_hmacSha1 _ _)]
        exact binBytes_writeBin_count hm hm' (secretOf s)
      · rw [digest_writeResults hw (length_hmacSha1 _ _), digest_writeResults hw' (length_hmacSha1 _ _)]

/-- A candidate that fails the format gate leaves BIN alone, so it has no output but STATUS (42_totp.md R69). -/
theorem verifyBody_endsAlike (h : sameOperands .verify s s') : EndsAlike .verify (verifyBody s) (verifyBody s') := by
  obtain ⟨hlen, hbytes, hlo, hhi, hcLo, hcHi, hcLen⟩ := h
  have hsec : secretOf s' = secretOf s := congrArg decodeLenient hbytes.symm
  have htime : timeValue s' = timeValue s := by rw [timeValue, timeValue, hlo, hhi]
  have hcand : candSix s' = candSix s := by rw [candSix, candSix, candBytes, candBytes, hcLo, hcHi]
  have hfmt : fmtOk s' = fmtOk s := by rw [fmtOk, fmtOk, hcand, hcLen]
  have hbin := binBytes_writeBin_count hm hm' (secretOf s)
  rw [verifyBody, verifyBody, ← hlen, hsec, htime, hcand, hfmt]
  split
  · exact .error _
  · split
    next hreject => exact .ok _ fun hpass => absurd (hpass.symm.trans hreject) (by decide)
    · split
      · exact .ok _ fun _ => ⟨rfl, hbin⟩
      · exact .ok _ fun _ => ⟨rfl, hbin⟩

/-- A command's pseudocode, run from the same operands, ends alike. -/
theorem bodyOf_endsAlike {i : Instr} (h : sameOperands i s s') : EndsAlike i (bodyOf i s) (bodyOf i s') := by
  cases i with
  | enc => exact encBody_endsAlike hm hm' h
  | dec => exact decBody_endsAlike hm hm' false (fun _ _ => rfl) h
  | decS => exact decBody_endsAlike hm hm' true (fun _ _ => rfl) h
  | hotp => exact hotpBody_endsAlike hm hm' h
  | totp => exact totpBody_endsAlike hm hm' h
  | verify => exact verifyBody_endsAlike hm hm' h
  | zero => exact .ok _ ⟨rfl, rfl, rfl⟩

end

/-- Settles O14: the pseudocode ends alike, and the completion adds the same STATUS (10_state.md R24). -/
theorem commandsReadOnlyTheirOperands : Obligations.CommandsReadOnlyTheirOperands := by
  intro i s s' hm hm' h
  have halike := bodyOf_endsAlike hm hm' h
  rw [exec_eq_finish, exec_eq_finish]
  generalize hb : bodyOf i s = r at halike
  generalize hb' : bodyOf i s' = r' at halike
  cases halike with
  | error e =>
    exact ⟨_, _, finish_error hb, finish_error hb', rfl, rfl, fun he => absurd he (errCode_ne_noError_of_error hb)⟩
  | ok m same =>
    exact ⟨_, _, finish_ok hb, finish_ok hb', rfl, rfl, fun _ => (sameOutputs_complete ..).mpr same⟩

end Sys2Proof.Machine
end

section
/-! Base32's loops compute the bit streams of the prose, and undo each other: 40_base32.md R56, R58 and R60. -/

namespace Sys2Proof.Machine

/-! ### Bits, most significant first -/

@[simp] theorem length_bitsMsb {w : Nat} (v : BitVec w) : (bitsMsb v).length = w := by simp [bitsMsb]

theorem bitsMsb_width_zero (v : BitVec 0) : bitsMsb v = [] := rfl

theorem bitsMsb_width_one (v : BitVec 1) : bitsMsb v = [v.getLsbD 0] := rfl

theorem bitsMsb_append {n k : Nat} (x : BitVec n) (y : BitVec k) : bitsMsb (x ++ y) = bitsMsb x ++ bitsMsb y := by
  refine List.ext_getElem (by simp) fun i hi _ => ?_
  simp only [bitsMsb, List.getElem_map, List.getElem_range, List.getElem_append, List.length_map, List.length_range,
    BitVec.getMsbD_append]
  split <;> simp [*]

theorem bitsMsb_zero (n : Nat) : bitsMsb 0#n = List.replicate n false := by
  refine List.ext_getElem (by simp) fun i _ _ => ?_
  simp [bitsMsb]

/-- The low `k + m` bits are the `k` above the low `m`, and those. -/
theorem setWidth_eq_shiftRight_append {w : Nat} (k m : Nat) (x : BitVec w) :
    x.setWidth (k + m) = (x >>> m).setWidth k ++ x.setWidth m := by
  ext i hi
  by_cases him : i < m
  · simp [BitVec.getElem_append, him]
  · simp [BitVec.getElem_append, him, Nat.add_sub_cancel' (Nat.le_of_not_lt him)]

/-- Shifting a value into an accumulator wide enough puts its bits below the pending ones. -/
theorem setWidth_shiftIn {w n k : Nat} (acc : BitVec w) (v : BitVec k) (h : n + k ≤ w) :
    ((acc <<< k) ||| v.setWidth w).setWidth (n + k) = acc.setWidth n ++ v := by
  ext i hi
  have hiw : i < w := by omega
  by_cases hik : i < k
  · simp [BitVec.getElem_append, hik, hiw]
  · simp [BitVec.getElem_append, hik, hiw, BitVec.getLsbD_of_ge v i (Nat.le_of_not_lt hik),
      BitVec.getLsbD_eq_getElem (x := acc) (show i - k < w by omega)]

/-- The `n` pending bits of an accumulator, as a bit stream: the oldest is the most significant (R32). -/
def pendingBits (acc : BitVec 12) (n : Nat) : List Bool := bitsMsb (acc.setWidth n)

@[simp] theorem length_pendingBits (acc : BitVec 12) (n : Nat) : (pendingBits acc n).length = n := length_bitsMsb _

/-- Shifting a value in appends its bits, where the accumulator has room. -/
theorem pendingBits_shiftIn {n k : Nat} (acc : BitVec 12) (v : BitVec k) (h : n + k ≤ 12) :
    pendingBits ((acc <<< k) ||| v.setWidth 12) (n + k) = pendingBits acc n ++ bitsMsb v := by
  rw [pendingBits, setWidth_shiftIn acc v h, bitsMsb_append, pendingBits]

/-- The oldest `k` pending bits are the value above the rest. -/
theorem pendingBits_split (acc : BitVec 12) {k n : Nat} (h : k ≤ n) :
    pendingBits acc n = bitsMsb ((acc >>> (n - k)).setWidth k) ++ pendingBits acc (n - k) := by
  obtain ⟨m, rfl⟩ := Nat.exists_eq_add_of_le h
  rw [pendingBits, setWidth_eq_shiftRight_append, bitsMsb_append, Nat.add_sub_cancel_left, pendingBits]

/-- The bits of the low `n` places stand for the number in them. -/
theorem ofBitsMsb_bitsMsb_setWidth {w : Nat} (n : Nat) (x : BitVec w) :
    ofBitsMsb (bitsMsb (x.setWidth n)) = x.toNat % 2 ^ n := by
  induction n generalizing x with
  | zero => rw [bitsMsb_width_zero, Nat.pow_zero, Nat.mod_one]; rfl
  | succ n ih =>
    have hbit : ((x.setWidth 1).getLsbD 0).toNat = x.toNat % 2 := by
      rw [BitVec.getLsbD, Nat.toNat_testBit, BitVec.toNat_setWidth]; simp
    rw [setWidth_eq_shiftRight_append, bitsMsb_append, ofBitsMsb, List.foldl_append, ← ofBitsMsb, ih, bitsMsb_width_one,
      List.foldl_cons, List.foldl_nil, hbit, BitVec.toNat_ushiftRight, Nat.shiftRight_one, Nat.pow_succ',
      Nat.mod_mul, Nat.add_comm]

theorem ofNat_ofBitsMsb_bitsMsb {w : Nat} (v : BitVec w) : BitVec.ofNat w (ofBitsMsb (bitsMsb v)) = v := by
  have h := ofBitsMsb_bitsMsb_setWidth w v
  rw [BitVec.setWidth_eq, Nat.mod_eq_of_lt v.isLt] at h
  rw [h, BitVec.ofNat_toNat, BitVec.setWidth_eq]

@[simp] theorem length_flatMap_bitsMsb {w : Nat} (vs : List (BitVec w)) :
    (vs.flatMap bitsMsb).length = w * vs.length := by
  simp [List.length_flatMap, Nat.mul_comm]

/-! ### Groups -/

/-- The first five bits are the first group. -/
theorem groups5_bitsMsb_append (v : BitVec 5) (l : List Bool) : groups5 (bitsMsb v ++ l) = v :: groups5 l :=
  congrArg (· :: groups5 l) (ofNat_ofBitsMsb_bitsMsb v)

/-- A last short group is filled with zero bits (R56). -/
theorem groups5_short {l : List Bool} (h0 : 0 < l.length) (h5 : l.length < 5) :
    groups5 l = groups5 (l ++ List.replicate (5 - l.length) false) := by
  match l, h0, h5 with
  | [_], _, _ | [_, _], _, _ | [_, _, _], _, _ | [_, _, _, _], _, _ => rfl

/-- Fewer than five pending bits, shifted up to fill a group, are the last one. -/
theorem groups5_pendingBits (acc : BitVec 12) {n : Nat} (h0 : 0 < n) (h5 : n < 5) :
    groups5 (pendingBits acc n) = [(acc <<< (5 - n)).setWidth 5] := by
  have hfill := pendingBits_shiftIn (n := n) (k := 5 - n) acc 0#_ (by omega)
  rw [BitVec.setWidth_zero, BitVec.or_zero, bitsMsb_zero, show n + (5 - n) = 5 by omega] at hfill
  rw [groups5_short (by simpa using h0) (by simpa using h5), length_pendingBits, ← hfill, pendingBits,
    ← List.append_nil (bitsMsb _), groups5_bitsMsb_append, groups5]

theorem length_groups5 (l : List Bool) : (groups5 l).length = (l.length + 4) / 5 := by
  induction l using groups5.induct with
  | case1 | case2 | case3 | case4 | case5 => simp [groups5]
  | case6 a b c d e rest ih => simp only [groups5, List.length_cons, ih]; omega

/-- Five bits are the bits of the group they make. -/
theorem bitsMsb_group5 (a b c d e : Bool) :
    bitsMsb (BitVec.ofNat 5 (ofBitsMsb [a, b, c, d, e])) = [a, b, c, d, e] := by
  decide +revert

/-- The bits of the groups are the stream, and fewer than five more. -/
theorem flatMap_groups5 (l : List Bool) : ∃ fill, fill.length < 5 ∧ (groups5 l).flatMap bitsMsb = l ++ fill := by
  induction l using groups5.induct with
  | case1 => exact ⟨[], by decide, rfl⟩
  | case2 a => exact ⟨[false, false, false, false], by decide, bitsMsb_group5 ..⟩
  | case3 a b => exact ⟨[false, false, false], by decide, bitsMsb_group5 ..⟩
  | case4 a b c => exact ⟨[false, false], by decide, bitsMsb_group5 ..⟩
  | case5 a b c d => exact ⟨[false], by decide, bitsMsb_group5 ..⟩
  | case6 a b c d e rest ih =>
    obtain ⟨fill, hlt, h⟩ := ih
    exact ⟨fill, hlt, by rw [groups5, List.flatMap_cons, bitsMsb_group5, h]; rfl⟩

/-- The first eight bits are the first byte. -/
theorem groups8_bitsMsb_append (v : Byte) (l : List Bool) : groups8 (bitsMsb v ++ l) = v :: groups8 l :=
  congrArg (· :: groups8 l) (ofNat_ofBitsMsb_bitsMsb v)

theorem length_groups8 (l : List Bool) : (groups8 l).length = l.length / 8 := by
  induction l using groups8.induct with
  | case1 a b c d e f g h rest ih => simp only [groups8, List.length_cons, ih]; omega
  | case2 l hl =>
    match l, hl with
    | [], _ | [_], _ | [_, _], _ | [_, _, _], _ | [_, _, _, _], _ | [_, _, _, _, _], _ | [_, _, _, _, _, _], _
    | [_, _, _, _, _, _, _], _ => simp [groups8]
    | a :: b :: c :: d :: e :: f :: g :: h :: rest, hl => exact (hl a b c d e f g h rest rfl).elim

/-- Trailing bits smaller than a byte are discarded (R58). -/
theorem groups8_short {l : List Bool} (h : l.length < 8) : groups8 l = [] :=
  List.eq_nil_of_length_eq_zero ((length_groups8 l).trans (Nat.div_eq_of_lt h))

/-- The bytes of a byte stream are the byte sequence, whatever short remainder follows. -/
theorem groups8_byteStream_append (b : List Byte) {fill : List Bool} (h : fill.length < 8) :
    groups8 (byteStream b ++ fill) = b := by
  induction b with
  | nil => exact groups8_short h
  | cons c bs ih => rw [byteStream, List.flatMap_cons, List.append_assoc, groups8_bitsMsb_append, ← byteStream, ih]

/-! ### ENCODE -/

/-- The inner loop emits the groups of the oldest pending bits and leaves the rest pending. -/
theorem map_groups5_emitGroups (acc : BitVec 12) (fuel n : Nat) (l : List Bool) :
    (groups5 (pendingBits acc n ++ l)).map b32chr =
      (emitGroups acc fuel n).1 ++ (groups5 (pendingBits acc (emitGroups acc fuel n).2 ++ l)).map b32chr := by
  induction fuel generalizing n with
  | zero => rfl
  | succ fuel ih =>
    rw [emitGroups]
    split
    next h =>
      rw [pendingBits_split acc h, List.append_assoc, groups5_bitsMsb_append, List.map_cons, ih]
      rfl
    next => rfl

/-- ENCODE emits the groups of the pending bits and the bytes still to come. -/
theorem encodeFrom_eq_groups5 (acc : BitVec 12) {n : Nat} (h : n < 5) (b : List Byte) :
    encodeFrom acc n b = (groups5 (pendingBits acc n ++ byteStream b)).map b32chr := by
  induction b generalizing acc n with
  | nil =>
    rw [encodeFrom, byteStream, List.flatMap_nil, List.append_nil]
    split
    next h0 => rw [groups5_pendingBits acc h0 h]; rfl
    next h0 => rw [Nat.eq_zero_of_not_pos h0]; rfl
  | cons c bs ih =>
    obtain ⟨hrest, _⟩ := emitGroups_spec ((acc <<< 8) ||| c.setWidth 12) (n + 8) (n + 8) (by omega)
    rw [encodeFrom, ih _ (by omega), ← map_groups5_emitGroups, pendingBits_shiftIn acc c (by omega), List.append_assoc]
    rfl

/-- Settles O28: ENCODE starts with no bit pending. -/
theorem encodeIsTheBitStream : Obligations.EncodeIsTheBitStream := fun b =>
  encodeFrom_eq_groups5 0 (by decide) b

theorem length_base32Encode (b : List Byte) : (base32Encode b).length = (8 * b.length + 4) / 5 := by
  rw [encodeIsTheBitStream, List.length_map, length_groups5, byteStream, length_flatMap_bitsMsb]

/-- `b32chr` gives a letter `A` to `Z` or a digit `2` to `7` (00_scope.md R10). -/
theorem b32chr_range (v : BitVec 5) :
    (0x41 ≤ (b32chr v).toNat ∧ (b32chr v).toNat ≤ 0x5A) ∨ (0x32 ≤ (b32chr v).toNat ∧ (b32chr v).toNat ≤ 0x37) := by
  have := v.isLt
  unfold b32chr
  split <;> rw [BitVec.toNat_ofNat] <;> omega

/-- Settles O29: the groups are counted by `length_groups5`, and each becomes one character. -/
theorem encodeGivesAlphabetCharacters : Obligations.EncodeGivesAlphabetCharacters := by
  refine fun b => ⟨length_base32Encode b, fun c hc => ?_⟩
  rw [encodeIsTheBitStream] at hc
  obtain ⟨v, _, rfl⟩ := List.mem_map.1 hc
  exact b32chr_range v

/-! ### DECODE -/

theorem alphabetValues_cons_none {c : Byte} (h : b32val (upcase c) = none) (ts : List Byte) :
    alphabetValues (c :: ts) = alphabetValues ts := by simp [alphabetValues, h]

theorem alphabetValues_cons_some {c : Byte} {v : BitVec 5} (h : b32val (upcase c) = some v) (ts : List Byte) :
    alphabetValues (c :: ts) = v :: alphabetValues ts := by simp [alphabetValues, h]

theorem isBadChar_of_none {c : Byte} (h : b32val (upcase c) = none) : isBadChar c = !isws c := by simp [isBadChar, h]

theorem isBadChar_of_some {c : Byte} {v : BitVec 5} (h : b32val (upcase c) = some v) : isBadChar c = false := by
  simp [isBadChar, h]

/-- DECODE emits the bytes of the pending bits and the alphabet characters still to come; only the strict decode is
INVALID, and only at a bad character. -/
theorem decodeFrom_eq_groups8 (strict : Bool) (acc : BitVec 12) {n : Nat} (h : n < 8) (t : List Byte) :
    decodeFrom strict acc n t =
      if strict && t.any isBadChar then none
      else some (groups8 (pendingBits acc n ++ (alphabetValues t).flatMap bitsMsb)) := by
  induction t generalizing acc n with
  | nil => simp [decodeFrom, alphabetValues, groups8_short, h]
  | cons c ts ih =>
    cases hv : b32val (upcase c) with
    | none =>
      rw [alphabetValues_cons_none hv, List.any_cons, isBadChar_of_none hv]
      cases hs : strict && !isws c with
      | false => rw [decodeFrom_drop hv hs, ih acc h, Bool.and_or_distrib_left, hs, Bool.false_or]
      | true => rw [decodeFrom, hv, Bool.and_or_distrib_left, hs]; rfl
    | some v =>
      have hpend := pendingBits_shiftIn acc v (show n + 5 ≤ 12 by omega)
      rw [alphabetValues_cons_some hv, List.any_cons, isBadChar_of_some hv, Bool.false_or, List.flatMap_cons,
        ← List.append_assoc, ← hpend]
      by_cases hn : 8 ≤ n + 5
      · rw [decodeFrom_emit hv hn, ih _ (by omega), pendingBits_split _ hn, List.append_assoc, groups8_bitsMsb_append,
          apply_ite (Option.map _)]
        rfl
      · rw [decodeFrom_pend hv (by omega), ih _ (by omega)]

theorem base32Decode_eq_groups8 (t : List Byte) (strict : Bool) :
    base32Decode t strict =
      if strict && t.any isBadChar then none else some (groups8 ((alphabetValues t).flatMap bitsMsb)) :=
  decodeFrom_eq_groups8 strict 0 (by decide) t

/-- Settles O30: DECODE starts with no bit pending, in both modes. -/
theorem decodeIsTheBitStream : Obligations.DecodeIsTheBitStream := fun t =>
  ⟨base32Decode_eq_groups8 t false, base32Decode_eq_groups8 t true⟩

/-- Settles O31: the stream has five bits for each alphabet character, and a byte takes eight. -/
theorem decodeLengthIsFiveEighths : Obligations.DecodeLengthIsFiveEighths := by
  intro t r strict h
  rw [base32Decode_eq_groups8] at h
  split at h
  · cases h
  · cases h
    rw [length_groups8, length_flatMap_bitsMsb]

/-! ### The round trip -/

/-- An alphabet character is read as its own value. -/
theorem b32val_upcase_b32chr (v : BitVec 5) : b32val (upcase (b32chr v)) = some v := by decide +revert

/-- A text of alphabet characters is read as their values. -/
theorem alphabetValues_map_b32chr (vs : List (BitVec 5)) : alphabetValues (vs.map b32chr) = vs := by
  rw [alphabetValues, List.filterMap_map]
  exact (List.filterMap_congr fun v _ => b32val_upcase_b32chr v).trans List.filterMap_some

theorem any_isBadChar_map_b32chr (vs : List (BitVec 5)) : (vs.map b32chr).any isBadChar = false := by
  simp [isBadChar_of_some (b32val_upcase_b32chr _)]

/-- Settles O32: the characters stand for the byte stream and fewer than five fill bits, which DECODE discards. -/
theorem decodeUndoesEncode : Obligations.DecodeUndoesEncode := by
  intro b strict
  obtain ⟨fill, hlt, hbits⟩ := flatMap_groups5 (byteStream b)
  rw [base32Decode_eq_groups8, encodeIsTheBitStream, any_isBadChar_map_b32chr, alphabetValues_map_b32chr, hbits,
    groups8_byteStream_append b (by omega), Bool.and_false]
  rfl

end Sys2Proof.Machine
end

section
/-! The commands ENC, DEC and DEC.S: what they write, and that they undo each other (40_base32.md R57, R59, R60). -/

namespace Sys2Proof.Machine

open Sys2Proof.Spec

/-- A byte-sequence store places its bytes and leaves every other byte alone. -/
theorem storedAt_of_writeBytes {s t : State} (hm : Memory.wf s.mem = true) {base : Nat} {bs : List Byte}
    (ht : t.mem = Memory.writeBytes s.mem base bs) : storedAt base bs s t := by
  rw [storedAt, ht]
  exact ⟨fun _ hi => read_writeBytes_inside hm base bs hi, fun _ ha => read_writeBytes_outside s.mem bs ha⟩

/-- Storing the bytes that a range holds changes no byte. -/
theorem read_writeBytes_readBytes {m : Memory} (hm : Memory.wf m = true) (base n a : Nat) :
    Memory.read (Memory.writeBytes m base (Memory.readBytes m base n)) a = Memory.read m a := by
  by_cases ha : a < base ∨ base + n ≤ a
  · exact read_writeBytes_outside m _ (by simpa using ha)
  · obtain ⟨i, rfl⟩ := Nat.exists_eq_add_of_le (show base ≤ a by omega)
    rw [read_writeBytes_inside hm base _ (by simp; omega)]
    simp [Memory.readBytes, List.getD_eq_getElem?_getD, show i < n by omega]

/-! ### ENC -/

theorem exec_enc_of_gt {s : State} (h : 80 < s.regs.binLen.toNat) :
    exec .enc s = .next (complete .length false s) := by
  rcases encBody_cases s with ⟨_, he⟩ | ⟨hle, _⟩
  · exact finish_error he
  · omega

theorem exec_enc_of_le {s : State} (h : s.regs.binLen.toNat ≤ 80) :
    exec .enc s = .next (complete .noError false (writeTxt (base32Encode (binInput s)) s)) := by
  rcases encBody_cases s with ⟨hgt, _⟩ | ⟨_, _, he⟩
  · omega
  · exact finish_ok he

/-- Settles O34: the two cases of ENC's pseudocode. -/
theorem encWritesTheEncodingOfBin : Obligations.EncWritesTheEncodingOfBin := by
  refine fun s => ⟨exec_enc_of_gt, fun hle hm => ⟨_, exec_enc_of_le hle, storedAt_of_writeBytes hm rfl, ?_, rfl⟩⟩
  rw [length_base32Encode, binBytes_eq_readBytes, length_readBytes]

/-! ### DEC and DEC.S -/

/-- `i` is the Base32 decode with S = `strict` (R59). -/
def IsDecode (i : Instr) (strict : Bool) : Prop := i = .dec ∧ strict = false ∨ i = .decS ∧ strict = true

section
variable {i : Instr} {strict : Bool} {s : State} (hi : IsDecode i strict)
include hi

theorem exec_eq_finish_decBody : exec i s = finish (decBody strict) s := by
  rcases hi with ⟨rfl, rfl⟩ | ⟨rfl, rfl⟩ <;> rfl

theorem exec_decode_of_gt (h : 128 < s.regs.txtLen.toNat) : exec i s = .next (complete .length false s) := by
  rw [exec_eq_finish_decBody hi]
  exact finish_error (if_pos h)

theorem exec_decode_of_none (h : s.regs.txtLen.toNat ≤ 128) (hd : base32Decode (txtInput s) strict = none) :
    i = .decS ∧ exec i s = .next (complete .invalidChar false s) := by
  rw [exec_eq_finish_decBody hi]
  rcases decBody_cases strict s with ⟨hgt, _⟩ | ⟨_, _, hstrict, he⟩ | ⟨r, _, hr, _⟩
  · omega
  · subst hstrict
    exact ⟨(hi.resolve_left (by simp)).1, finish_error he⟩
  · rw [hd] at hr; cases hr

theorem exec_decode_of_some {r : List Byte} (h : s.regs.txtLen.toNat ≤ 128)
    (hd : base32Decode (txtInput s) strict = some r) :
    r.length ≤ 80 ∧ exec i s = .next (complete .noError false (writeBin r s)) := by
  rw [exec_eq_finish_decBody hi]
  rcases decBody_cases strict s with ⟨hgt, _⟩ | ⟨_, hn, _⟩ | ⟨r', _, hr, hfit, he⟩
  · omega
  · rw [hd] at hn; cases hn
  · rw [hd] at hr; cases hr
    exact ⟨hfit, finish_ok he⟩

end

/-- Settles O35: the three cases of the pseudocode of DEC and DEC.S. -/
theorem decWritesTheDecodingOfTxt : Obligations.DecWritesTheDecodingOfTxt := by
  refine fun s i strict hi => ⟨exec_decode_of_gt hi, exec_decode_of_none hi, fun r hle hm hd => ?_⟩
  obtain ⟨hfit, hexec⟩ := exec_decode_of_some hi hle hd
  exact ⟨_, hexec, hfit, storedAt_of_writeBytes hm rfl, rfl⟩

/-! ### ENC, then DEC or DEC.S -/

theorem toNat_txtLen_writeTxt (s : State) {bs : List Byte} (fits : bs.length ≤ 128) :
    (writeTxt bs s).regs.txtLen.toNat = bs.length := Nat.mod_eq_of_lt (by omega : bs.length < 2 ^ 8)

/-- TXT reads back as the text stored in it. -/
theorem txtInput_writeTxt {s : State} (hm : Memory.wf s.mem = true) {bs : List Byte} (fits : bs.length ≤ 128) :
    txtInput (writeTxt bs s) = bs := by
  rw [txtInput, toNat_txtLen_writeTxt s fits, writeTxt_mem, readBytes_writeBytes hm]

/-- Storing in BIN bytes that it holds changes none of them. -/
theorem binBytes_writeBin_binBytes {s : State} (hm : Memory.wf s.mem = true) (k n : Nat) :
    binBytes (writeBin (binBytes s k) s) n = binBytes s n :=
  readBytes_congr fun i _ => read_writeBytes_readBytes hm binBase k (binBase + i)

/-- With a text in TXT that decodes to what BIN holds, DEC and DEC.S leave BIN and BIN_LEN as they are. -/
theorem exec_decode_keeps_bin {i : Instr} {strict : Bool} (hi : IsDecode i strict) {s : State}
    (hm : Memory.wf s.mem = true) {text : List Byte} (fits : text.length ≤ 128)
    (hdec : base32Decode text strict = some (binInput s)) :
    ∃ u, exec i (complete .noError false (writeTxt text s)) = .next u ∧ u.status.err = .noError ∧
      u.regs.binLen = s.regs.binLen ∧ binBytes u 80 = binBytes s 80 := by
  have hlen := (toNat_txtLen_writeTxt s fits).trans_le fits
  rw [← txtInput_writeTxt hm fits] at hdec
  obtain ⟨_, hexec⟩ := exec_decode_of_some (s := complete .noError false (writeTxt text s)) hi hlen hdec
  refine ⟨_, hexec, rfl, ?_, ?_⟩
  · change BitVec.ofNat 8 (binInput s).length = s.regs.binLen
    rw [binInput, length_readBytes, BitVec.ofNat_toNat, BitVec.setWidth_eq]
  · have hbin : binInput s = binBytes (writeTxt text s) s.regs.binLen.toNat := (binBytes_writeTxt fits s _).symm
    calc binBytes (writeBin (binInput s) (writeTxt text s)) 80
        = binBytes (writeTxt text s) 80 := by
          rw [hbin, binBytes_writeBin_binBytes (wf_writeBytes hm txtBase text)]
      _ = binBytes s 80 := binBytes_writeTxt fits s 80

/-- Settles O33: the text that ENC stores decodes to what BIN holds, in both modes. -/
theorem encThenDecRestoresBin : Obligations.EncThenDecRestoresBin := by
  intro s hm h
  have fits : (base32Encode (binInput s)).length ≤ 128 := base32Encode_fits (by rwa [binInput, length_readBytes])
  have hdec := decodeUndoesEncode (binInput s)
  exact ⟨_, exec_enc_of_le h, exec_decode_keeps_bin (.inl ⟨rfl, rfl⟩) hm fits (hdec false),
    exec_decode_keeps_bin (.inr ⟨rfl, rfl⟩) hm fits (hdec true)⟩

end Sys2Proof.Machine
end

section
/-! SHA-1's padding, HMAC's key, HOTPCALC's integer laws and the command HOTP (41_hotp.md R61 to R64). -/

namespace Sys2Proof.Machine

open Sys2Proof.Spec

/-! ### The padding of SHA-1 (R61) -/

theorem add_sha1PadZeros_mod (len : Nat) : (len + 1 + sha1PadZeros len) % 64 = 56 := by
  unfold sha1PadZeros
  omega

theorem sha1PadZeros_le {len k : Nat} (h : (len + 1 + k) % 64 = 56) : sha1PadZeros len ≤ k := by
  unfold sha1PadZeros
  omega

/-- The byte 0x80, the zeros and the 8-byte length follow the message. -/
theorem length_sha1Pad (m : List Byte) : (sha1Pad m).length = m.length + 1 + sha1PadZeros m.length + 8 := by
  simp only [sha1Pad, List.length_append, List.length_singleton, List.length_replicate, length_be64bytes]

/-- Settles O36: the zeros end 8 bytes below a block's end, where the length goes. -/
theorem paddingFillsWholeBlocks : Obligations.PaddingFillsWholeBlocks := by
  intro m
  have hzeros := add_sha1PadZeros_mod m.length
  refine ⟨hzeros, fun k => sha1PadZeros_le, ?_⟩
  rw [length_sha1Pad]
  omega

/-! ### The key of HMAC (R62) -/

theorem hmacKey_of_le {k : List Byte} (h : k.length ≤ 64) : hmacKey k = k ++ List.replicate (64 - k.length) 0 := by
  rw [hmacKey, if_neg (by omega)]

theorem hmacKey_of_gt {k : List Byte} (h : 64 < k.length) : hmacKey k = hmacKey (sha1 k) := by
  rw [hmacKey_of_le (k := sha1 k) (by simp), hmacKey, if_pos h]

theorem length_hmacKey (k : List Byte) : (hmacKey k).length = 64 := by
  have short {k : List Byte} (h : k.length ≤ 64) : (hmacKey k).length = 64 := by
    simp [hmacKey_of_le h, h]
  rcases Nat.lt_or_ge 64 k.length with h | h
  · rw [hmacKey_of_gt h]
    exact short (by simp)
  · exact short h

/-- The padding is zeros, and a byte past a list's end reads as zero too. -/
theorem getD_hmacKey_of_le {k : List Byte} (h : k.length ≤ 64) {i : Nat} (hi : i < 64) :
    (hmacKey k).getD i 0 = k.getD i 0 := by
  rw [hmacKey_of_le h]
  rcases Nat.lt_or_ge i k.length with hk | hk
  · rw [List.getD_append _ _ _ _ hk]
  · rw [List.getD_append_right _ _ _ _ hk, List.getD_replicate _ (by omega), List.getD_eq_default _ _ hk]

/-- Settles O37: a key above 64 bytes has the block key of its own digest, on which alone the MAC depends. -/
theorem hmacKeyIsOneBlock : Obligations.HmacKeyIsOneBlock := by
  refine ⟨length_hmacKey, fun k h i hi => getD_hmacKey_of_le h hi, fun k m h => ?_⟩
  rw [hmacSha1, hmacSha1, hmacKey_of_gt h]

/-! ### HOTPCALC (R63) -/

/-- The two masks are remainders: the low nibble of byte 19, and the low 31 bits of the word read there. -/
theorem toNat_truncate (d : List Byte) :
    (truncate d).toNat = (be32 d ((d.getD 19 0).toNat % 16)).toNat % 2 ^ 31 := by
  have hnibble (b : Byte) : (b &&& 0x0F).toNat = b.toNat % 16 := Nat.and_two_pow_sub_one_eq_mod b.toNat 4
  rw [truncate, hnibble]
  exact Nat.and_two_pow_sub_one_eq_mod _ 31

/-- The first `n` characters of a code, read as a decimal number, are the first `n` of its six digits. -/
theorem foldl_codeChar (code : Nat) {n : Nat} (hn : n ≤ 6) :
    ((List.range n).map (codeChar code)).foldl (fun m c => 10 * m + (c.toNat - 0x30)) 0 =
      code / 10 ^ (6 - n) % 10 ^ n := by
  induction n with
  | zero => simp [Nat.mod_one]
  | succ n ih =>
    have hdiv : code / 10 ^ (6 - n) = code / 10 ^ (5 - n) / 10 := by
      rw [Nat.div_div_eq_div_mul, ← Nat.pow_succ, show (5 - n).succ = 6 - n by omega]
    rw [List.range_succ, List.map_append, List.foldl_append, ih (by omega), List.map_singleton, List.foldl_cons,
      List.foldl_nil, toNat_codeChar, hdiv, Nat.pow_succ', Nat.mod_mul, show 6 - (n + 1) = 5 - n by omega]
    omega

theorem all_isdigit_asc (d : List Byte) : (ofDigest d).asc.all isdigit = true := by
  simp [ofDigest, isdigit_codeChar]

/-- The six characters of a code are its decimal digits. -/
theorem foldl_asc_ofDigest (d : List Byte) :
    (ofDigest d).asc.foldl (fun n c => 10 * n + (c.toNat - 0x30)) 0 = (ofDigest d).code := by
  have hcode : (ofDigest d).code < 10 ^ 6 := Nat.mod_lt _ (by decide)
  calc (ofDigest d).asc.foldl (fun n c => 10 * n + (c.toNat - 0x30)) 0
      = (ofDigest d).code / 10 ^ 0 % 10 ^ 6 := foldl_codeChar _ (Nat.le_refl 6)
    _ = (ofDigest d).code := by rw [Nat.pow_zero, Nat.div_one, Nat.mod_eq_of_lt hcode]

/-- Settles O38: truncation's masks are remainders, and the six characters read back to the code. -/
theorem hotpcalcGivesSixDigits : Obligations.HotpcalcGivesSixDigits := by
  intro k c
  exact ⟨rfl, length_hmacSha1 k _, by omega, toNat_truncate _, rfl, length_ofDigest_asc _, all_isdigit_asc _,
    foldl_asc_ofDigest _⟩

/-! ### HOTP (R64) -/

theorem exec_hotp_of_gt {s : State} (h : 80 < s.regs.binLen.toNat) :
    exec .hotp s = .next (complete .length false s) := by
  rcases hotpBody_cases s with ⟨_, he⟩ | ⟨h0, _⟩ | ⟨_, hle, _⟩
  · exact finish_error he
  · omega
  · omega

theorem exec_hotp_of_eq_zero {s : State} (h : s.regs.binLen.toNat = 0) :
    exec .hotp s = .next (complete .emptyKey false s) := by
  rcases hotpBody_cases s with ⟨hgt, _⟩ | ⟨_, he⟩ | ⟨hpos, _⟩
  · omega
  · exact finish_error he
  · omega

theorem exec_hotp_of_le {s : State} (hpos : 1 ≤ s.regs.binLen.toNat) (hle : s.regs.binLen.toNat ≤ 80) :
    exec .hotp s = .next (complete .noError false
      (writeResults (hotpCalc (binBytes s s.regs.binLen.toNat) (s.regs.cntHi ++ s.regs.cntLo)) s)) := by
  rcases hotpBody_cases s with ⟨hgt, _⟩ | ⟨h0, _⟩ | ⟨_, _, he⟩
  · omega
  · omega
  · exact finish_ok he

/-- Two high lanes of 0x00 are the 0x0000 of CODE_ASC_HI. -/
theorem ofLanes_zero_zero (b0 b1 : Byte) : ofLanes b0 b1 0 0 = 0#16 ++ b1 ++ b0 := rfl

/-- DIGEST takes the digest, and no other byte changes. -/
theorem storedAt_writeResults {s : State} (hm : Memory.wf s.mem = true) (r : HotpResult) :
    storedAt 0x040 r.digest s (complete .noError false (writeResults r s)) := storedAt_of_writeBytes hm rfl

/-- All that a completion with a HOTPCALC result writes. -/
theorem complete_writeResults (r : HotpResult) (s : State) :
    complete .noError false (writeResults r s) =
      { s with
        mem := (complete .noError false (writeResults r s)).mem
        results :=
          { binCode := r.binCode
            code := BitVec.ofNat 32 r.code
            codeAscLo := r.asc.getD 3 0 ++ r.asc.getD 2 0 ++ r.asc.getD 1 0 ++ r.asc.getD 0 0
            codeAscHi := 0#16 ++ r.asc.getD 5 0 ++ r.asc.getD 4 0 }
        status := statusAfter s .noError false
        engine := engineAfter s } := by
  rw [← ofLanes_zero_zero]
  rfl

/-- Settles O39: the three cases of HOTP's pseudocode. -/
theorem hotpWritesTheCodeOfBinAndCnt : Obligations.HotpWritesTheCodeOfBinAndCnt := by
  refine fun s => ⟨exec_hotp_of_gt, exec_hotp_of_eq_zero, fun hpos hle hm => ?_⟩
  exact ⟨_, exec_hotp_of_le hpos hle, storedAt_writeResults hm _, length_hmacSha1 _ _, complete_writeResults _ s⟩

end Sys2Proof.Machine
end

section
/-! The commands TOTP and VERIFY: the counter, the format gate, the window and what each command writes
(42_totp.md R65 to R70). -/

namespace Sys2Proof.Machine

open Sys2Proof.Spec

/-! ### The counter (R65) -/

/-- Settles O41: with a divisor of 30, the largest time leaves room for the counter's successor. -/
theorem tcountIsExactDivision : Obligations.TcountIsExactDivision := by
  intro t
  have ht : t.toNat < 2 ^ 64 := t.isLt
  rw [tcount, Config.period]
  omega

/-! ### The window (R68) -/

/-- The three positions reach exactly the counters one away, none of them below 0. -/
theorem exists_windowCounter_iff (c n : Nat) : (∃ p, windowCounter p c = some n) ↔ c ≤ n + 1 ∧ n ≤ c + 1 := by
  constructor
  · rintro ⟨p, hp⟩
    cases p with
    | before =>
      cases c with
      | zero => cases hp
      | succ c => cases hp; omega
    | current => cases hp; omega
    | after => cases hp; omega
  · rintro ⟨hlo, hhi⟩
    obtain rfl | rfl | rfl : c = n + 1 ∨ n = c ∨ n = c + 1 := by omega
    · exact ⟨.before, rfl⟩
    · exact ⟨.current, rfl⟩
    · exact ⟨.after, rfl⟩

theorem windowHit_iff (k : List Byte) (c : Nat) (cand : List Byte) (p : WindowPos) :
    windowHit k c cand p = true ↔ ∃ n, windowCounter p c = some n ∧ (hotpCalc k (BitVec.ofNat 64 n)).asc = cand := by
  rw [windowHit]
  cases windowCounter p c <;> simp

/-- The window leaves no position out. -/
theorem windowMatch_iff_exists_hit (k : List Byte) (c : Nat) (cand : List Byte) :
    windowMatch k c cand = true ↔ ∃ p, windowHit k c cand p = true := by
  have all_positions (p : WindowPos) : p ∈ [WindowPos.before, .current, .after] := by cases p <;> decide
  simp only [windowMatch, List.any_eq_true, all_positions, true_and]

/-- The window over natural-number counters: some counter at most one away gives the candidate. -/
theorem windowMatch_iff (k : List Byte) (c : Nat) (cand : List Byte) :
    windowMatch k c cand = true ↔
      ∃ n, (c ≤ n + 1 ∧ n ≤ c + 1) ∧ (hotpCalc k (BitVec.ofNat 64 n)).asc = cand := by
  simp only [windowMatch_iff_exists_hit, windowHit_iff, ← exists_windowCounter_iff]
  exact ⟨fun ⟨p, n, hp, hn⟩ => ⟨n, ⟨p, hp⟩, hn⟩, fun ⟨n, ⟨p, hp⟩, hn⟩ => ⟨p, n, hp, hn⟩⟩

/-- Settles O45: `delta` is the distance of the counter that gives the candidate. -/
theorem windowIsOnePeriodEitherSide : Obligations.WindowIsOnePeriodEitherSide := by
  intro k c cand
  rw [windowMatch_iff]
  constructor
  · rintro ⟨n, hn, hasc⟩
    refine ⟨(n : Int) - c, by omega, by omega, by omega, ?_⟩
    rwa [show (c : Int) + (n - c) = n by omega, Int.toNat_natCast]
  · rintro ⟨delta, hlo, hhi, hpos, hasc⟩
    exact ⟨((c : Int) + delta).toNat, by omega, hasc⟩

/-! ### The operands -/

theorem tcount_timeValue (s : State) : tcount (timeValue s) = (s.regs.timeHi ++ s.regs.timeLo).toNat / 30 := rfl

/-- The six candidate bytes, lane by lane (10_state.md R22). -/
theorem candSix_eq_map_candByte (s : State) : candSix s = (List.range 6).map (candByte s) := rfl

/-- A 64-bit value is the concatenation of its two registers (R20, R21). -/
theorem extractLsb'_hi_append_lo (x : DWord) : x.extractLsb' 32 32 ++ x.extractLsb' 0 32 = x := by
  rw [BitVec.extractLsb'_append_extractLsb'_eq_extractLsb' (by rfl)]
  exact BitVec.extractLsb'_eq_self

/-- A candidate copied from the result registers is the code's six characters (R28, R63). -/
theorem candSix_of_resultRegs {s : State} {d : List Byte} (hlo : s.regs.candLo = (resultRegs (ofDigest d)).codeAscLo)
    (hhi : s.regs.candHi = (resultRegs (ofDigest d)).codeAscHi) : candSix s = (ofDigest d).asc := by
  rw [candSix_eq_map_candByte]
  refine List.map_congr_left fun j hj => ?_
  have hj : j < 6 := List.mem_range.mp hj
  change candByte s j = codeChar (ofDigest d).code j
  rw [← getD_asc_ofDigest d hj, candByte]
  split
  next h4 => rw [hlo, ← lane_codeAscLo d h4, lane]
  next h4 => rw [hhi, ← lane_codeAscHi d (by omega) hj, lane]

/-! ### The format gate (R67) -/

theorem isdigit_iff (c : Byte) : isdigit c = true ↔ 0x30 ≤ c.toNat ∧ c.toNat ≤ 0x39 := by simp [isdigit]

theorem fmtOk_iff (s : State) : fmtOk s = true ↔ s.regs.candLen = 6 ∧ (candSix s).all isdigit = true := by
  rw [fmtOk, Bool.and_eq_true, decide_eq_true_iff, ← BitVec.toNat_inj]
  rfl

/-! ### VERIFY (R69) -/

theorem exec_verify_of_gt {s : State} (h : 128 < s.regs.txtLen.toNat) :
    exec .verify s = .next (complete .length false s) := by
  rcases verifyBody_cases s with ⟨_, he⟩ | ⟨hle, _⟩ | ⟨hle, _⟩
  · exact finish_error he
  · omega
  · omega

theorem exec_verify_of_rejected {s : State} (h : s.regs.txtLen.toNat ≤ 128) (hf : fmtOk s = false) :
    exec .verify s = .next (complete .noError false s) := by
  rcases verifyBody_cases s with ⟨hgt, _⟩ | ⟨_, _, he⟩ | ⟨_, hok, _⟩
  · omega
  · exact finish_ok he
  · rw [hf] at hok; cases hok

theorem exec_verify_of_fmtOk {s : State} (h : s.regs.txtLen.toNat ≤ 128) (hf : fmtOk s = true) :
    exec .verify s = .next (complete .noError
      (!(secret s).isEmpty && windowMatch (secret s) (tcount (timeValue s)) (candSix s)) (writeBin (secret s) s)) := by
  rcases verifyBody_cases s with ⟨hgt, _⟩ | ⟨_, hno, _⟩ | ⟨_, _, _, he⟩
  · omega
  · rw [hf] at hno; cases hno
  · exact finish_ok he

/-- Settles O44: the gate looks at the six lanes, and a candidate it rejects ends VERIFY. -/
theorem formatGateIsSixDigits : Obligations.FormatGateIsSixDigits := by
  refine ⟨fun s => ?_, fun s => exec_verify_of_rejected⟩
  simp only [fmtOk_iff, candSix_eq_map_candByte, List.all_map, List.all_eq_true, List.mem_range, Function.comp_apply,
    isdigit_iff]

/-- Settles O46: the three cases of VERIFY's pseudocode. -/
theorem verifySetsMatch : Obligations.VerifySetsMatch := fun _ =>
  ⟨exec_verify_of_gt, exec_verify_of_rejected, fun hle hf hm =>
    ⟨_, exec_verify_of_fmtOk hle hf, secretOf_fits hle, storedAt_of_writeBytes hm rfl, rfl⟩⟩

/-! ### TOTP (R66) -/

/-- The counter of TIME as the 64-bit operand of HOTPCALC. -/
def timeCounter (s : State) : DWord := BitVec.ofNat 64 ((s.regs.timeHi ++ s.regs.timeLo).toNat / 30)

/-- The state after a TOTP without error: the secret in BIN, its code at TIME in the results. -/
def afterTotp (s : State) : State :=
  complete .noError false (writeResults (hotpCalc (secret s) (timeCounter s)) (writeBin (secret s) s))

theorem exec_totp_of_gt {s : State} (h : 128 < s.regs.txtLen.toNat) :
    exec .totp s = .next (complete .length false s) := by
  rcases totpBody_cases s with ⟨_, he⟩ | ⟨hle, _⟩ | ⟨hle, _⟩
  · exact finish_error he
  · omega
  · omega

theorem exec_totp_of_empty {s : State} (h : s.regs.txtLen.toNat ≤ 128) (hk : secret s = []) :
    exec .totp s = .next (complete .emptyKey false s) := by
  rcases totpBody_cases s with ⟨hgt, _⟩ | ⟨_, _, he⟩ | ⟨_, hne, _⟩
  · omega
  · exact finish_error he
  · exact absurd hk hne

theorem exec_totp_of_secret {s : State} (h : s.regs.txtLen.toNat ≤ 128) (hk : secret s ≠ []) :
    exec .totp s = .next (afterTotp s) := by
  rcases totpBody_cases s with ⟨hgt, _⟩ | ⟨_, h0, _⟩ | ⟨_, _, _, he⟩
  · omega
  · exact absurd h0 hk
  · exact finish_ok he

@[simp] theorem afterTotp_results (s : State) :
    (afterTotp s).results = resultRegs (hotpCalc (secret s) (timeCounter s)) := rfl

theorem binBytes_complete (e : ErrCode) (m : Bool) (s : State) (n : Nat) :
    binBytes (complete e m s) n = binBytes s n := rfl

theorem digest_complete (e : ErrCode) (m : Bool) (s : State) : digest (complete e m s) = digest s := rfl

/-- BIN holds a byte sequence stored in it. -/
theorem binBytes_writeBin {s : State} (hm : Memory.wf s.mem = true) (bs : List Byte) :
    binBytes (writeBin bs s) bs.length = bs := readBytes_writeBytes hm binBase bs

theorem binBytes_afterTotp {s : State} (hm : Memory.wf s.mem = true) :
    binBytes (afterTotp s) (secret s).length = secret s := by
  rw [afterTotp, binBytes_complete, binBytes_writeResults (length_hmacSha1 _ _), binBytes_writeBin hm]

theorem digest_afterTotp {s : State} (hm : Memory.wf s.mem = true) :
    digest (afterTotp s) = (hotpCalc (secret s) (timeCounter s)).digest := by
  rw [afterTotp, digest_complete, digest_writeResults (wf_writeBytes hm binBase _) (length_hmacSha1 _ _)]

theorem read_afterTotp_outside (s : State) {a : Nat} (hd : a < 0x040 ∨ 0x054 ≤ a)
    (hb : a < 0x200 ∨ 0x200 + (secret s).length ≤ a) : Memory.read (afterTotp s).mem a = Memory.read s.mem a := by
  rw [afterTotp, complete_mem, writeResults_mem, read_writeBytes_outside _ _ (by simpa using hd), writeBin_mem,
    binBase, read_writeBytes_outside _ _ hb]

/-- Settles O42: the three cases of TOTP's pseudocode. -/
theorem totpWritesTheCodeOfTxtAndTime : Obligations.TotpWritesTheCodeOfTxtAndTime := by
  refine fun s => ⟨exec_totp_of_gt, exec_totp_of_empty, fun hle hk hm => ?_⟩
  exact ⟨_, exec_totp_of_secret hle hk, secretOf_fits hle, length_hmacSha1 _ _, binBytes_afterTotp hm,
    digest_afterTotp hm, fun a => read_afterTotp_outside s, complete_writeResults _ (writeBin (secret s) s)⟩

/-! ### TOTP is DEC, then HOTP (R66) -/

/-- `u` with the counter `c` in CNT. -/
def withCnt (c : DWord) (u : State) : State :=
  { u with regs := { u.regs with cntHi := c.extractLsb' 32 32, cntLo := c.extractLsb' 0 32 } }

theorem binBytes_withCnt (c : DWord) (u : State) (n : Nat) : binBytes (withCnt c u) n = binBytes u n := rfl

/-- HOTP of a key that BIN holds, with the counter `c` in CNT (41_hotp.md R64). -/
theorem exec_hotp_withCnt {u : State} {k : List Byte} (hk : k ≠ []) (fits : k.length ≤ 80)
    (hlen : u.regs.binLen.toNat = k.length) (hbin : binBytes u k.length = k) (c : DWord) :
    exec .hotp (withCnt c u) = .next (complete .noError false (writeResults (hotpCalc k c) (withCnt c u))) := by
  have hpos : 0 < k.length := List.length_pos_iff.mpr hk
  have hkey : binBytes (withCnt c u) (withCnt c u).regs.binLen.toNat = k := by
    rw [binBytes_withCnt, show (withCnt c u).regs.binLen.toNat = _ from hlen, hbin]
  have hcnt : (withCnt c u).regs.cntHi ++ (withCnt c u).regs.cntLo = c := extractLsb'_hi_append_lo c
  rw [exec_hotp_of_le (s := withCnt c u) (hpos.trans_eq hlen.symm) (hlen.trans_le fits), hkey, hcnt]

theorem toNat_binLen_writeBin (s : State) {bs : List Byte} (fits : bs.length ≤ 80) :
    (writeBin bs s).regs.binLen.toNat = bs.length := Nat.mod_eq_of_lt (by omega : bs.length < 2 ^ 8)

/-- Settles O43: DEC leaves in BIN the key that TOTP decodes, and HOTP computes the same HOTPCALC of it. -/
theorem totpIsDecThenHotp : Obligations.TotpIsDecThenHotp := by
  intro s hm hle hk
  obtain ⟨fits, hdec⟩ := exec_decode_of_some (.inl ⟨rfl, rfl⟩) hle (base32Decode_lenient (txtInput s))
  have hhotp := exec_hotp_withCnt (u := complete .noError false (writeBin (secret s) s)) hk fits
    (toNat_binLen_writeBin s fits) (binBytes_writeBin hm (secret s)) (timeCounter s)
  refine ⟨_, _, _, exec_totp_of_secret hle hk, hdec, hhotp, rfl, ?_, ?_⟩
  · rw [complete_results, writeResults_results, afterTotp_results]
  · rw [digest_afterTotp hm, digest_complete]
    exact digest_writeResults (wf_writeBytes hm binBase (secret s)) (length_hmacSha1 _ _)

/-! ### VERIFY accepts TOTP's code (R70) -/

/-- `t` with the time `x` in TIME and the code of its result registers as the candidate. -/
def withCodeAt (x : DWord) (t : State) : State :=
  { t with
    regs :=
      { t.regs with
        timeHi := x.extractLsb' 32 32
        timeLo := x.extractLsb' 0 32
        candLo := t.results.codeAscLo
        candHi := t.results.codeAscHi
        candLen := 6 } }

theorem secret_withCodeAt (x : DWord) (t : State) : secret (withCodeAt x t) = secret t := rfl

theorem timeValue_withCodeAt (x : DWord) (t : State) : timeValue (withCodeAt x t) = x := extractLsb'_hi_append_lo x

theorem secret_complete (e : ErrCode) (m : Bool) (s : State) : secret (complete e m s) = secret s := rfl

/-- TOTP keeps TXT, so VERIFY decodes the same secret after it. -/
theorem secret_afterTotp {s : State} (h : s.regs.txtLen.toNat ≤ 128) : secret (afterTotp s) = secret s := by
  have hend : txtBase + s.regs.txtLen.toNat ≤ binBase := Nat.add_le_add_left (h.trans (by decide : 128 ≤ 256)) txtBase
  rw [afterTotp, secret_complete]
  refine congrArg decodeLenient ?_
  rw [txtBytes_writeResults (length_hmacSha1 _ _)]
  exact readBytes_writeBytes_disjoint s.mem _ (.inl hend)

theorem candSix_withCodeAt_afterTotp (x : DWord) (s : State) :
    candSix (withCodeAt x (afterTotp s)) = (hotpCalc (secret s) (timeCounter s)).asc := candSix_of_resultRegs rfl rfl

/-- VERIFY, given TOTP's code at a time whose counter is at most one away, sets MATCH. -/
theorem exec_verify_withCodeAt_afterTotp {s : State} {x : DWord} (h : s.regs.txtLen.toNat ≤ 128) (hk : secret s ≠ [])
    (hnear : tcount x ≤ tcount (timeValue s) + 1 ∧ tcount (timeValue s) ≤ tcount x + 1) :
    exec .verify (withCodeAt x (afterTotp s)) =
      .next (complete .noError true (writeBin (secret s) (withCodeAt x (afterTotp s)))) := by
  have hcand := candSix_withCodeAt_afterTotp x s
  have hfmt : fmtOk (withCodeAt x (afterTotp s)) = true := by
    rw [fmtOk_iff, hcand]
    exact ⟨rfl, all_isdigit_asc _⟩
  have hmatch : windowMatch (secret s) (tcount x) (hotpCalc (secret s) (timeCounter s)).asc = true :=
    (windowMatch_iff ..).mpr ⟨_, hnear, rfl⟩
  have hkey : (secret s).isEmpty = false := by simpa using hk
  rw [exec_verify_of_fmtOk (s := withCodeAt x (afterTotp s)) h hfmt, secret_withCodeAt, secret_afterTotp h,
    timeValue_withCodeAt, hcand, hmatch, hkey, Bool.not_false, Bool.and_self]

/-- Settles O47: times at most 30 seconds apart have counters at most one apart. -/
theorem verifyAcceptsTotpWithinOnePeriod : Obligations.VerifyAcceptsTotpWithinOnePeriod := by
  intro s t' hle hk hnear
  have hcounter : tcount t' ≤ tcount (timeValue s) + 1 ∧ tcount (timeValue s) ≤ tcount t' + 1 := by
    rw [tcount_timeValue, tcount, Config.period]
    omega
  exact ⟨_, _, exec_totp_of_secret hle hk, exec_verify_withCodeAt_afterTotp hle hk hcounter, rfl, rfl⟩

end Sys2Proof.Machine
end

section
/-! An illegal command word and ZERO (43_control.md R71, R72). -/

namespace Sys2Proof.Machine

open Sys2Proof.Spec

/-- A completion turn of a running illegal word raises ILLEGAL_CMD (R72, 60_exceptions.md R76). -/
theorem takeTurn_complete_of_illegal {s : State} (hrun : s.engine.phase = .run)
    (hill : ∀ i, s.engine.cmdLatch ≠ encode i) : takeTurn .complete s = .next (errored s .illegalCmd) := by
  rw [takeTurn, engineComplete_run hrun, completeLatched_of_illegal hill]

/-- Settles O10: an idle CMD write accepts any word, and the completion turn at the head of the schedule finds no command
in an illegal one. -/
theorem illegalWordCompletesWithIllegalCmd : Obligations.IllegalWordCompletesWithIllegalCmd := by
  refine ⟨fun s off w hidle hoff _ => ?_, fun s rest hturns hrun hill => ?_⟩
  · rw [cmdWriteIsAcceptedWhateverItsValue.1 s off w hidle hoff]
    exact ⟨rfl, rfl⟩
  · rw [step_cons hturns]
    exact takeTurn_complete_of_illegal (s := { s with turns := rest }) hrun hill

/-- `s` as ZERO's completion leaves it (R71): every register and buffer at its reset value, STATUS error-free with LOST
kept, CMDLATCH kept. -/
def zeroed (s : State) : State :=
  { s with regs := Regs.reset, results := Results.reset, mem := [], status := statusAfter s .noError false,
           engine := engineAfter s }

theorem exec_zero (s : State) : exec .zero s = .next (zeroed s) := by
  have hbody : bodyOf .zero s = .ok ({ s with regs := Regs.reset, results := Results.reset, mem := [] }, false) := rfl
  rw [exec_eq_finish, finish_ok hbody]
  rfl

/-- No word but STATUS tells a block that ZERO erased from one at reset. -/
theorem idleRead_zeroed {x : Target} (hx : x ≠ .reg .status) (s : State) :
    idleRead x (zeroed s) = idleRead x State.reset := by
  cases x with
  | reg r =>
    cases r with
    | status => exact absurd rfl hx
    | _ => rfl
  | _ => rfl

theorem busRead_zeroed {off : Offset} (hoff : off.toNat / 4 ≠ 1) (s : State) :
    busRead off (zeroed s) = (0, zeroed s) := by
  have hne : targetOf off ≠ .reg .status := fun h => hoff ((targetOf_eq_status_iff off).1 h)
  rw [busRead_idle rfl, idleRead_zeroed hne, idleRead_reset]

/-- STATUS after ZERO holds DONE, and LOST as it was (10_state.md R24). -/
theorem statusWord_zeroed (s : State) :
    statusWord (zeroed s) = if s.status.lost then 0x00000006 else 0x00000002 := by
  have hbits : statusWord (zeroed s) = ((((0#24 ++ 0#4).concat false).concat s.status.lost).concat true).concat false :=
    statusWord_eq_concat (zeroed s)
  rw [hbits]
  cases s.status.lost <;> rfl

/-- Settles O48: ZERO leaves `zeroed s`, whose words but STATUS read as after reset. -/
theorem zeroErasesEverything : Obligations.ZeroErasesEverything := fun s =>
  ⟨zeroed s, exec_zero s, rfl, fun _ hoff => busRead_zeroed hoff s, statusWord_zeroed s⟩

end Sys2Proof.Machine
end

section
/-! Errors: what a command that raises one leaves alone (60_exceptions.md R73, R82), which command raises which
(R77 to R81), and how long STATUS holds (R83). -/

namespace Sys2Proof.Machine

open Sys2Proof.Spec

/-! ### What an error changes -/

/-- A command that completes with an error code does nothing else. -/
theorem eq_errored_of_exec {i : Instr} {s t : State} (h : exec i s = .next t) (herr : t.status.err ≠ .noError) :
    t = errored s t.status.err := by
  rcases exec_next h with ⟨e, _, rfl⟩ | ⟨r, _, rfl⟩
  · rfl
  · exact absurd rfl herr

/-- Settles O8: an error, an illegal word's too, is a completion that drops the pseudocode's writes. -/
theorem erroringCommandWritesOnlyStatus : Obligations.ErroringCommandWritesOnlyStatus :=
  ⟨fun _ _ _ => eq_errored_of_exec, fun _ => finish_error rfl⟩

/-! ### Which command raises which error, in the order of the checks (R81) -/

theorem exec_enc_err (s : State) :
    ∃ t, exec .enc s = .next t ∧ t.status.err = if 80 < s.regs.binLen.toNat then .length else .noError := by
  split
  next hgt => exact ⟨_, exec_enc_of_gt hgt, rfl⟩
  next hle => exact ⟨_, exec_enc_of_le (Nat.not_lt.1 hle), rfl⟩

/-- A decode is INVALID only where it is strict and meets a bad character (40_base32.md R58). -/
theorem base32Decode_eq_none_iff (t : List Byte) (strict : Bool) :
    base32Decode t strict = none ↔ strict = true ∧ t.any isBadChar = true := by
  rw [base32Decode_eq_groups8, ← Bool.and_eq_true]
  cases strict && t.any isBadChar <;> simp

theorem exec_decode_err {i : Instr} {strict : Bool} (hi : IsDecode i strict) (s : State) :
    ∃ t, exec i s = .next t ∧ t.status.err =
      if 128 < s.regs.txtLen.toNat then .length
      else if strict = true ∧ (txtBytes s s.regs.txtLen.toNat).any isBadChar = true then .invalidChar
      else .noError := by
  simp only [← base32Decode_eq_none_iff]
  split
  next hgt => exact ⟨_, exec_decode_of_gt hi hgt, rfl⟩
  next hle =>
    cases hd : base32Decode (txtBytes s s.regs.txtLen.toNat) strict with
    | none => exact ⟨_, (exec_decode_of_none hi (Nat.not_lt.1 hle) hd).2, rfl⟩
    | some r => exact ⟨_, (exec_decode_of_some hi (Nat.not_lt.1 hle) hd).2, rfl⟩

/-- The lenient decode meets no bad character. -/
theorem exec_dec_err (s : State) :
    ∃ t, exec .dec s = .next t ∧ t.status.err = if 128 < s.regs.txtLen.toNat then .length else .noError := by
  simpa using exec_decode_err (.inl ⟨rfl, rfl⟩) s

/-- The bad characters, as R78 spells them out. -/
theorem isBadChar_eq_beq (c : Byte) : isBadChar c = (b32val (upcase c) == none && !isws c) := by
  rw [isBadChar]
  cases b32val (upcase c) <;> rfl

theorem exec_decS_err (s : State) :
    ∃ t, exec .decS s = .next t ∧ t.status.err =
      if 128 < s.regs.txtLen.toNat then .length
      else if (txtBytes s s.regs.txtLen.toNat).any (fun c => b32val (upcase c) == none && !isws c) then .invalidChar
      else .noError := by
  simp only [← isBadChar_eq_beq]
  simpa using exec_decode_err (.inr ⟨rfl, rfl⟩) s

theorem exec_hotp_err (s : State) :
    ∃ t, exec .hotp s = .next t ∧ t.status.err =
      if 80 < s.regs.binLen.toNat then .length else if s.regs.binLen = 0 then .emptyKey else .noError := by
  split
  next hgt => exact ⟨_, exec_hotp_of_gt hgt, rfl⟩
  next hle =>
    split
    next h0 => exact ⟨_, exec_hotp_of_eq_zero (by rw [h0]; rfl), rfl⟩
    next h0 =>
      have hpos : s.regs.binLen.toNat ≠ 0 := fun h => h0 (BitVec.eq_of_toNat_eq h)
      exact ⟨_, exec_hotp_of_le (Nat.pos_of_ne_zero hpos) (Nat.not_lt.1 hle), rfl⟩

theorem exec_totp_err (s : State) :
    ∃ t, exec .totp s = .next t ∧ t.status.err =
      if 128 < s.regs.txtLen.toNat then .length else if secret s = [] then .emptyKey else .noError := by
  split
  next hgt => exact ⟨_, exec_totp_of_gt hgt, rfl⟩
  next hle =>
    split
    next hk => exact ⟨_, exec_totp_of_empty (Nat.not_lt.1 hle) hk, rfl⟩
    next hk => exact ⟨_, exec_totp_of_secret (Nat.not_lt.1 hle) hk, rfl⟩

/-- An empty secret is no error of VERIFY: it matches nothing (42_totp.md R69). -/
theorem exec_verify_err (s : State) :
    ∃ t, exec .verify s = .next t ∧ (t.status.err = if 128 < s.regs.txtLen.toNat then .length else .noError) ∧
      (secret s = [] → t.status.matched = false) := by
  split
  next hgt => exact ⟨_, exec_verify_of_gt hgt, rfl, fun _ => rfl⟩
  next hle =>
    cases hf : fmtOk s with
    | false => exact ⟨_, exec_verify_of_rejected (Nat.not_lt.1 hle) hf, rfl, fun _ => rfl⟩
    | true => exact ⟨_, exec_verify_of_fmtOk (Nat.not_lt.1 hle) hf, rfl, fun hk => by simp [hk]⟩

/-- Settles O9: command by command, the checks of its pseudocode. -/
theorem errorsAreExactlyTheSpecs : Obligations.ErrorsAreExactlyTheSpecs := fun s =>
  ⟨exec_enc_err s, exec_dec_err s, exec_decS_err s, exec_hotp_err s, exec_totp_err s, exec_verify_err s,
    zeroed s, exec_zero s, rfl⟩

/-! ### How long STATUS holds (R83) -/

/-- Of an idle block's writes only an accepted command touches STATUS, and it leaves the block busy. -/
theorem idleWrite_status {off : Offset} {v : Word} {s : State}
    (h : (idleWrite (targetOf off) v s).engine.phase = .idle) : (idleWrite (targetOf off) v s).status = s.status := by
  rcases idleWrite_cases off v s with ⟨_, e⟩ | ⟨_, e⟩ | ⟨_, _, e⟩ | ⟨_, _, e⟩
  · rw [e] at h; cases h
  all_goals rw [e]

theorem hostTurn_status {s t : State} (h : hostTurn s = .next t) (hs : s.engine.phase = .idle)
    (ht : t.engine.phase = .idle) : t.status = s.status := by
  rcases hostTurn_next h with ⟨p, r, d, rfl⟩ | ⟨_, p, off, v, rfl⟩
  · rfl
  · rw [busWrite_idle (s := { s with program := p }) hs] at ht ⊢
    exact idleWrite_status ht

/-- Settles O15: turn by turn; an idle engine's own turns change nothing. -/
theorem statusHoldsUntilTheNextAccept : Obligations.StatusHoldsUntilTheNextAccept := by
  intro s t h hs ht hreset
  rcases step_cases h with ⟨_, hh⟩ | ⟨_, rfl⟩ | ⟨_, _, rfl⟩ | ⟨_, hrun, _⟩ | ⟨hturn, _⟩ | ⟨hturn, _⟩
  · exact hostTurn_status (s := popTurn s) hh hs ht
  · rw [engineCycle_idle (s := popTurn s) hs, popTurn_status]
  · rfl
  · rw [hs] at hrun; cases hrun
  · exact absurd (.inl hturn) hreset
  · exact absurd (.inr hturn) hreset

end Sys2Proof.Machine
end

section
/-! The reset input (70_reset_and_hazards.md R91, R92), the end of every run (R98), and how long LOST holds (R95). -/

namespace Sys2Proof.Machine

open Sys2Proof.Spec

/-! ### The reset input -/

theorem releaseReset_of_inReset {s : State} (h : s.inReset = true) :
    releaseReset s = { resetBlock s with inReset := false } := if_pos h

/-- Releasing a reset that is not asserted does nothing. -/
theorem releaseReset_of_not_inReset {s : State} (h : s.inReset = false) : releaseReset s = s := by
  simp [releaseReset, h]

/-- A host access to the block is a fault while reset is asserted (R92). -/
theorem hostTurn_of_access_inReset {s : State} {op : HostOp} {rest : List HostOp} {off : Offset}
    (hp : s.program = op :: rest) (hsel : selects op = some off) (hr : s.inReset = true) :
    hostTurn s = .fault .accessInReset := by
  simp [hostTurn, hp, hsel, hr]

theorem step_of_assertReset {s : State} {rest : List Turn} (h : s.turns = .assertReset :: rest) :
    step s = .next (assertReset { s with turns := rest }) := step_cons h

/-- A release gives the reset values whatever the block holds, a running command included (R91). -/
theorem step_of_releaseReset {s : State} {rest : List Turn} (h : s.turns = .releaseReset :: rest)
    (hr : s.inReset = true) : step s = .next { resetBlock s with inReset := false, turns := rest } := by
  rw [step_cons h, takeTurn, releaseReset_of_inReset (s := { s with turns := rest }) hr]
  rfl

/-- Settles O50: assertion and release each reset the block, whatever it holds, and between them a host access is a
fault. -/
theorem resetAbandonsTheCommand : Obligations.ResetAbandonsTheCommand := by
  refine ⟨fun s rest ht => ?_, fun s rest ht hr => step_of_releaseReset ht hr,
    fun s ts op rest off ht hp hsel hr => ?_⟩
  · rw [run_succ (step_of_assertReset ht)]
    exact run_one (step_of_releaseReset (s := assertReset { s with turns := .releaseReset :: rest }) rfl rfl)
  · rw [step_cons ht]
    exact hostTurn_of_access_inReset (s := { s with turns := ts }) hp hsel hr

/-! ### One turn of a running command -/

/-- Outside reset the host always moves on. -/
theorem hostTurn_isNext {s : State} (hr : s.inReset = false) : ∃ t, hostTurn s = .next t := by
  unfold hostTurn
  split
  · exact ⟨_, rfl⟩
  · split
    · exact ⟨_, rfl⟩
    · rw [hr]; exact ⟨_, rfl⟩

/-- All the host can do to a busy block is set LOST (10_state.md R25). -/
theorem hostTurn_run {s t : State} (h : hostTurn s = .next t) (hrun : s.engine.phase = .run) :
    t.engine = s.engine ∧ t.inReset = s.inReset ∧ t.turns = s.turns ∧ (s.status.lost = true → t.status.lost = true) := by
  rcases hostTurn_next h with ⟨p, r, d, rfl⟩ | ⟨_, p, off, v, rfl⟩
  · exact ⟨rfl, rfl, rfl, id⟩
  · rw [busWrite_busy (s := { s with program := p }) hrun]
    exact ⟨rfl, rfl, rfl, fun _ => rfl⟩

@[simp] theorem engineCycle_status (s : State) : (engineCycle s).status = s.status := by
  unfold engineCycle; split <;> rfl

/-- Whatever word is latched, its completion ends the run, sets DONE and keeps LOST (R24). -/
theorem completeLatched_completes (s : State) :
    ∃ t, completeLatched s = .next t ∧ t.engine = engineAfter s ∧
      t.status = statusAfter s t.status.err t.status.matched := by
  rcases completeLatched_cases s with ⟨i, _, hc⟩ | ⟨_, _, hc⟩ <;> rw [hc]
  · obtain ⟨t, ht, heng, hst, _⟩ := everyCommandCompletes i s
    exact ⟨t, ht, heng, hst⟩
  · exact ⟨_, rfl, rfl, rfl⟩

/-- A completion turn of a running command ends its run. -/
theorem step_completes {s : State} (ht : nextTurn s = .complete) (hrun : s.engine.phase = .run) :
    ∃ t, step s = .next t ∧ t.engine.phase = .idle ∧ t.status.done = true := by
  obtain ⟨t, hc, heng, hst⟩ := completeLatched_completes (popTurn s)
  refine ⟨t, ?_, by rw [heng]; rfl, by rw [hst]; rfl⟩
  rw [step, ht, takeTurn, engineComplete_run (s := popTurn s) hrun, hc]

/-- Every turn but a completion and a reset leaves the command running, with that turn taken off the schedule. -/
theorem step_keeps_running {s : State} (hrun : s.engine.phase = .run) (hr : s.inReset = false)
    (hcomplete : nextTurn s ≠ .complete) (hassert : nextTurn s ≠ .assertReset) :
    ∃ t, step s = .next t ∧ t.engine.phase = .run ∧ t.inReset = false ∧ t.turns = s.turns.tail := by
  unfold step
  cases ht : nextTurn s with
  | host =>
    obtain ⟨t, h⟩ := hostTurn_isNext (s := popTurn s) hr
    obtain ⟨heng, hres, hts, _⟩ := hostTurn_run h hrun
    exact ⟨t, h, by rw [heng]; exact hrun, hres.trans hr, hts⟩
  | cycle =>
    refine ⟨_, rfl, ?_⟩
    rw [engineCycle_run (s := popTurn s) hrun]
    exact ⟨hrun, hr, rfl⟩
  | complete => exact absurd ht hcomplete
  | assertReset => exact absurd ht hassert
  | releaseReset =>
    refine ⟨_, rfl, ?_⟩
    rw [releaseReset_of_not_inReset (s := popTurn s) hr]
    exact ⟨hrun, hr, rfl⟩

/-! ### The settled statements -/

/-- Settles O17, by induction on the schedule: a turn completes the command or leaves it running with one turn less, and
a running command whose schedule is used up completes. -/
theorem everyAcceptedCommandCompletesInTheEnd : Obligations.EveryAcceptedCommandCompletesInTheEnd := by
  intro s hrun hr hno
  induction hts : s.turns generalizing s with
  | nil =>
    obtain ⟨t, ht, hend⟩ := step_completes (s := s) (by rw [nextTurn, hts, hrun]) hrun
    exact ⟨1, by simp, t, run_one ht, hend⟩
  | cons u us ih =>
    have hnext : nextTurn s = u := nextTurn_cons hts
    obtain ⟨hassert, hrest⟩ : Turn.assertReset ≠ u ∧ Turn.assertReset ∉ us := by simpa [hts] using hno
    by_cases hu : u = .complete
    · obtain ⟨t, ht, hend⟩ := step_completes (hnext.trans hu) hrun
      exact ⟨1, by simp, t, run_one ht, hend⟩
    · obtain ⟨s', hs', hrun', hr', hts'⟩ := step_keeps_running hrun hr (hnext ▸ hu) (hnext ▸ hassert.symm)
      rw [hts, List.tail_cons] at hts'
      obtain ⟨k, hk, t, ht, hend⟩ := ih s' hrun' hr' (hts' ▸ hrest) hts'
      exact ⟨k + 1, Nat.succ_le_succ hk, t, (run_succ hs' k).trans ht, hend⟩

/-- Settles O16, turn by turn: a busy block's LOST is only ever set, and an idle block's changes with an accept only. -/
theorem onlyAcceptOrResetClearsLost : Obligations.OnlyAcceptOrResetClearsLost := by
  intro s t h hlost hcleared
  have hne : t.status.lost ≠ s.status.lost := by rw [hlost, hcleared]; decide
  rcases step_cases h with ⟨_, hh⟩ | ⟨_, rfl⟩ | ⟨_, _, rfl⟩ | ⟨_, _, hc⟩ | ⟨hturn, _⟩ | ⟨hturn, _⟩
  · cases hs : s.engine.phase with
    | run =>
      obtain ⟨_, _, _, hkeeps⟩ := hostTurn_run hh hs
      exact absurd (hkeeps hlost) (by simp [hcleared])
    | idle =>
      cases ht : t.engine.phase with
      | run => exact .inr ⟨rfl, rfl⟩
      | idle => exact absurd (congrArg Status.lost (hostTurn_status hh hs ht)) hne
  · exact absurd (congrArg Status.lost (engineCycle_status (popTurn s))) hne
  · exact absurd rfl hne
  · obtain ⟨t', hc', _, hst⟩ := completeLatched_completes (popTurn s)
    rw [hc] at hc'; cases hc'
    exact absurd (congrArg Status.lost hst) hne
  · exact .inl (.inl hturn)
  · exact .inl (.inr hturn)

end Sys2Proof.Machine
end

section
/-! The words of the opcode table as the decoder reads them (30_encoding.md section 2, R53). -/

namespace Sys2Proof.Machine

/-- A table row of 32 bits is read as the command word it holds (R53). -/
theorem decodeTableWord_toNat (w : Word) : decodeTableWord 32 w.toNat = (decode w).toOption := by
  have hmod : w.toNat % 2 ^ 32 = w.toNat := Nat.mod_eq_of_lt w.isLt
  rw [decodeTableWord, hmod, if_pos w.isLt, BitVec.ofNat_toNat, BitVec.setWidth_eq]

/-- A command's own word, as a table row, is read as the command (R50). -/
theorem decodeTableWord_encode (i : Instr) : decodeTableWord 32 (encode i).toNat = some i :=
  (decodeTableWord_toNat _).trans (toOption_decode_encode i)

/-- Settles O4: the seven rows are the commands' own words; the others have OP = 0x0, S beside an OP other than 0x2,
and a 1 in the reserved bit 31. -/
theorem tableWordsDecode : Obligations.TableWordsDecode := by
  have hop : (decode 0x00000000).toOption = none :=
    reservedAndStrictWordsAreIllegal _ (.inr (.inl rfl))
  have hstrict : (decode 0x00000101).toOption = none :=
    reservedAndStrictWordsAreIllegal _ (.inr (.inr (.inr ⟨rfl, by decide⟩)))
  have hreserved : (decode 0x80000002).toOption = none :=
    reservedAndStrictWordsAreIllegal _ (.inl ⟨31, by decide, rfl⟩)
  exact ⟨decodeTableWord_encode .enc, decodeTableWord_encode .dec, decodeTableWord_encode .decS,
    decodeTableWord_encode .hotp, decodeTableWord_encode .totp, decodeTableWord_encode .verify,
    decodeTableWord_encode .zero, (decodeTableWord_toNat _).trans hop, (decodeTableWord_toNat _).trans hstrict,
    (decodeTableWord_toNat _).trans hreserved⟩

end Sys2Proof.Machine
end
